-- ==== Sys2Proof/Word.lean ====
section
/-! DEFINITION. The word types of the bit-stream output packer, by the widths the spec gives. -/

namespace Sys2Proof

/-- One destination or payload byte (`20_memory.md` R30, R31). -/
abbrev Byte := BitVec 8

/-- One command word `CW[79:0]` (`30_encoding.md` R61). -/
abbrev CommandWord := BitVec 80

/-- One response word `RSP[73:0]` (`30_encoding.md` R66). -/
abbrev ResponseWord := BitVec 74

end Sys2Proof
end

