-- ==== Sys2Proof/Syntax.lean ====
section
/-! DEFINITION. The abstract syntax: one constructor per row of the opcode table (`30_encoding.md` R62). -/

namespace Sys2Proof

/-- The twelve operations with their operands as the fields of the command word give them
(`30_encoding.md` R62, R63). A count is the 8-bit field `CNT`; `WellFormed.lean` holds its range. -/
inductive Instr where
  /-- `INIT N`: bind to a destination of `N` bytes (`40_construction.md` R81). -/
  | init (n : BitVec 32)
  /-- `INITH N, HINT`: bind with a hint that nothing reads (`40_construction.md` R83). -/
  | inith (n hint : BitVec 32)
  /-- `RESET` (`46_introspection_reset.md` R112). -/
  | reset
  /-- `PUT.BE n, value` (`41_put_be.md` R88). -/
  | putBe (n : BitVec 8) (value : BitVec 32)
  /-- `PUT.LE n, value` (`42_put_le.md` R94). -/
  | putLe (n : BitVec 8) (value : BitVec 32)
  /-- `PUT64.BE n, value` (`43_put64.md` R97). -/
  | put64Be (n : BitVec 8) (value : BitVec 64)
  /-- `PUT64.LE n, value` (`43_put64.md` R98). -/
  | put64Le (n : BitVec 8) (value : BitVec 64)
  /-- `FLUSH` (`44_flush.md` R101). -/
  | flush
  /-- `WRB` with the payload length `L`; the bytes stand on the channel `PAY` (`45_write_bytes.md` R105). -/
  | wrb (l : BitVec 32)
  /-- `POS` (`46_introspection_reset.md` R109). -/
  | pos
  /-- `REM` (`46_introspection_reset.md` R110). -/
  | rem
  /-- `TAIL` (`46_introspection_reset.md` R111). -/
  | tail
  deriving DecidableEq, Repr

/-- The names of the twelve rows of the opcode table. -/
inductive Op where
  | init | inith | reset | putBe | putLe | put64Be | put64Le | flush | wrb | pos | rem | tail
  deriving DecidableEq, Repr

/-- The row of the opcode table an instruction belongs to. -/
def Instr.op : Instr → Op
  | .init _ => .init
  | .inith _ _ => .inith
  | .reset => .reset
  | .putBe _ _ => .putBe
  | .putLe _ _ => .putLe
  | .put64Be _ _ => .put64Be
  | .put64Le _ _ => .put64Le
  | .flush => .flush
  | .wrb _ => .wrb
  | .pos => .pos
  | .rem => .rem
  | .tail => .tail

end Sys2Proof
end

