-- ==== Sys2Proof/Config.lean ====
section
/-! DEFINITION. What is fixed for the machine: the constants of `00_scope.md` R3 and R5, and the one free value. -/

namespace Sys2Proof.Config

/-- `PUTMAX`, the largest count of `PUT.BE` and `PUT.LE` (`00_scope.md` R3). -/
abbrev putMax : Nat := 32

/-- `PUT64MAX`, the largest count of `PUT64.BE` and `PUT64.LE` (`00_scope.md` R3). -/
abbrev put64Max : Nat := 64

/-- `CACHEW`, the width of `CACHE` (`00_scope.md` R3). -/
abbrev cacheWidth : Nat := 64

/-- `DRAINW`, the bits moved by the insertion-time drain (`00_scope.md` R3). -/
abbrev drainWidth : Nat := 32

/-- `BYTEW`, the bits of a destination byte (`00_scope.md` R3). -/
abbrev byteWidth : Nat := 8

/-- The first number that `INDEX` cannot hold: `2^IDXW` with `IDXW = 32` (`00_scope.md` R5). -/
abbrev indexLimit : Nat := 4294967296

/-- FREE VALUE. What `INDEX` holds after an operation whose true sum is `2^32` or more, which the spec calls
outside the envelope and for which it states no result (`00_scope.md` R5; `93_implementation_defined.md` U3:
in particular no wrap to 0). Applied to the counter `State.freeCount`, so that each such event has a value of
its own. DESIGN CHOICE, safe: log 1. -/
opaque indexBeyondEnvelope : Nat → BitVec 32

end Sys2Proof.Config
end

