-- ==== Sys2Proof/WellFormed.lean ====
section
/-! DEFINITION. Which instructions a legal command word can carry: the count ranges of `30_encoding.md` R64. -/

namespace Sys2Proof

/-- The count of `PUT.BE` and `PUT.LE` is at most 32, that of `PUT64.BE` and `PUT64.LE` at most 64; every
value of every other operand is legal (`30_encoding.md` R63, R64). -/
def Instr.wellFormed : Instr → Bool
  | .init _ => true
  | .inith _ _ => true
  | .reset => true
  | .putBe n _ => decide (n.toNat ≤ Config.putMax)
  | .putLe n _ => decide (n.toNat ≤ Config.putMax)
  | .put64Be n _ => decide (n.toNat ≤ Config.put64Max)
  | .put64Le n _ => decide (n.toNat ≤ Config.put64Max)
  | .flush => true
  | .wrb _ => true
  | .pos => true
  | .rem => true
  | .tail => true

end Sys2Proof
end

