-- ==== Sys2Proof/Decode.lean ====
section
/-! DEFINITION. From the 80-bit command word to an instruction or a named reason why the word is reserved, and
back (`30_encoding.md` R61 to R64, R68, R70, R74). -/

namespace Sys2Proof

/-- Why a command word is reserved: the conditions of `30_encoding.md` R68, in its order. The block's answer is
the same for all of them; the name is the decoder's own (log 11). -/
inductive Reserved where
  /-- `OPC` is 0x0 or 0xB to 0xF. -/
  | opcode
  /-- `Z ≠ 0`. -/
  | zField
  /-- `E = 1` in an operation that has no endian selector. -/
  | endian
  /-- `CNT ≠ 0` in an operation that has no count. -/
  | count
  /-- `CNT > 32` in `PUT`, `CNT > 64` in `PUT64`. -/
  | countRange
  /-- `DATAH ≠ 0` in `INIT`, `PUT` or `WRB`. -/
  | dataHigh
  /-- `DATA ≠ 0` in an operation without operands. -/
  | data
  deriving DecidableEq, Repr

/-- `OPC = CW[79:76]`. -/
def opcField (w : CommandWord) : BitVec 4 := w.extractLsb' 76 4

/-- `E = CW[75]`, the endian selector. -/
def eField (w : CommandWord) : BitVec 1 := w.extractLsb' 75 1

/-- `Z = CW[74:72]`. -/
def zField (w : CommandWord) : BitVec 3 := w.extractLsb' 72 3

/-- `CNT = CW[71:64]`. -/
def cntField (w : CommandWord) : BitVec 8 := w.extractLsb' 64 8

/-- `DATA = CW[63:0]`. -/
def dataField (w : CommandWord) : BitVec 64 := w.extractLsb' 0 64

/-- `DATAH = CW[63:32]`. -/
def datahField (w : CommandWord) : BitVec 32 := w.extractLsb' 32 32

/-- `DATAL = CW[31:0]`. -/
def datalField (w : CommandWord) : BitVec 32 := w.extractLsb' 0 32

/-- Format `Z`: no operand; `E`, `CNT` and `DATA` are zero (R61). -/
def decodeZ (w : CommandWord) (i : Instr) : Except Reserved Instr :=
  if eField w ≠ 0#1 then .error .endian
  else if cntField w ≠ 0#8 then .error .count
  else if dataField w ≠ 0#64 then .error .data
  else .ok i

/-- Format `L`: a length in `DATAL`; `E`, `CNT` and `DATAH` are zero (R61). -/
def decodeL (w : CommandWord) (f : BitVec 32 → Instr) : Except Reserved Instr :=
  if eField w ≠ 0#1 then .error .endian
  else if cntField w ≠ 0#8 then .error .count
  else if datahField w ≠ 0#32 then .error .dataHigh
  else .ok (f (datalField w))

/-- Format `LH`: `N` in `DATAL` and any hint in `DATAH`; `E` and `CNT` are zero (R61). -/
def decodeLH (w : CommandWord) (f : BitVec 32 → BitVec 32 → Instr) : Except Reserved Instr :=
  if eField w ≠ 0#1 then .error .endian
  else if cntField w ≠ 0#8 then .error .count
  else .ok (f (datalField w) (datahField w))

/-- Format `P32`: a count of at most 32 and a 32-bit value; `DATAH` is zero (R61, R64). -/
def decodeP32 (w : CommandWord) : Except Reserved Instr :=
  if Config.putMax < (cntField w).toNat then .error .countRange
  else if datahField w ≠ 0#32 then .error .dataHigh
  else if eField w = 0#1 then .ok (.putBe (cntField w) (datalField w))
  else .ok (.putLe (cntField w) (datalField w))

/-- Format `P64`: a count of at most 64 and a 64-bit value (R61, R64). -/
def decodeP64 (w : CommandWord) : Except Reserved Instr :=
  if Config.put64Max < (cntField w).toNat then .error .countRange
  else if eField w = 0#1 then .ok (.put64Be (cntField w) (dataField w))
  else .ok (.put64Le (cntField w) (dataField w))

/-- The instruction a command word carries, or the reason why it is reserved. Total, and a function of the word
alone (`30_encoding.md` R74). -/
def decode (w : CommandWord) : Except Reserved Instr :=
  if zField w ≠ 0#3 then .error .zField
  else if opcField w = 0x1#4 then decodeL w .init
  else if opcField w = 0x2#4 then decodeLH w .inith
  else if opcField w = 0x3#4 then decodeZ w .reset
  else if opcField w = 0x4#4 then decodeP32 w
  else if opcField w = 0x5#4 then decodeP64 w
  else if opcField w = 0x6#4 then decodeZ w .flush
  else if opcField w = 0x7#4 then decodeL w .wrb
  else if opcField w = 0x8#4 then decodeZ w .pos
  else if opcField w = 0x9#4 then decodeZ w .rem
  else if opcField w = 0xA#4 then decodeZ w .tail
  else .error .opcode

/-- The five fields put together, `Z = 0` (`30_encoding.md` R61). -/
def commandWord (opc : BitVec 4) (e : BitVec 1) (cnt : BitVec 8) (data : BitVec 64) : CommandWord :=
  opc ++ e ++ 0#3 ++ cnt ++ data

/-- The command word of an instruction (`30_encoding.md` R61, R62). -/
def encode : Instr → CommandWord
  | .init n => commandWord 0x1#4 0#1 0#8 (0#32 ++ n)
  | .inith n hint => commandWord 0x2#4 0#1 0#8 (hint ++ n)
  | .reset => commandWord 0x3#4 0#1 0#8 0#64
  | .putBe n value => commandWord 0x4#4 0#1 n (0#32 ++ value)
  | .putLe n value => commandWord 0x4#4 1#1 n (0#32 ++ value)
  | .put64Be n value => commandWord 0x5#4 0#1 n value
  | .put64Le n value => commandWord 0x5#4 1#1 n value
  | .flush => commandWord 0x6#4 0#1 0#8 0#64
  | .wrb l => commandWord 0x7#4 0#1 0#8 (0#32 ++ l)
  | .pos => commandWord 0x8#4 0#1 0#8 0#64
  | .rem => commandWord 0x9#4 0#1 0#8 0#64
  | .tail => commandWord 0xA#4 0#1 0#8 0#64

/-- One row of the opcode map of `30_encoding.md` R62: `pattern` is its column `match`, and `maxCount` its
constraint on `CNT` (255, every value of the field, where the row has none). -/
structure OpcodeRow where
  op : Op
  pattern : CommandWord
  mask : CommandWord
  maxCount : Nat
  deriving DecidableEq, Repr

/-- The twelve rows of `30_encoding.md` R62, in its order. -/
def opcodeRows : List OpcodeRow :=
  [ ⟨.init, 0x10000000000000000000#80, 0xFFFFFFFFFFFF00000000#80, 255⟩,
    ⟨.inith, 0x20000000000000000000#80, 0xFFFF0000000000000000#80, 255⟩,
    ⟨.reset, 0x30000000000000000000#80, 0xFFFFFFFFFFFFFFFFFFFF#80, 255⟩,
    ⟨.putBe, 0x40000000000000000000#80, 0xFF00FFFFFFFF00000000#80, 32⟩,
    ⟨.putLe, 0x48000000000000000000#80, 0xFF00FFFFFFFF00000000#80, 32⟩,
    ⟨.put64Be, 0x50000000000000000000#80, 0xFF000000000000000000#80, 64⟩,
    ⟨.put64Le, 0x58000000000000000000#80, 0xFF000000000000000000#80, 64⟩,
    ⟨.flush, 0x60000000000000000000#80, 0xFFFFFFFFFFFFFFFFFFFF#80, 255⟩,
    ⟨.wrb, 0x70000000000000000000#80, 0xFFFFFFFFFFFF00000000#80, 255⟩,
    ⟨.pos, 0x80000000000000000000#80, 0xFFFFFFFFFFFFFFFFFFFF#80, 255⟩,
    ⟨.rem, 0x90000000000000000000#80, 0xFFFFFFFFFFFFFFFFFFFF#80, 255⟩,
    ⟨.tail, 0xA0000000000000000000#80, 0xFFFFFFFFFFFFFFFFFFFF#80, 255⟩ ]

/-- A word selects a row when `w AND mask = match` and the row's count constraint holds (R62). -/
def OpcodeRow.selects (r : OpcodeRow) (w : CommandWord) : Bool :=
  decide (w &&& r.mask = r.pattern) && decide ((cntField w).toNat ≤ r.maxCount)

/-- A command word as ten bytes, most significant first (`30_encoding.md` R70). -/
def commandBytes (w : CommandWord) : List Byte :=
  (List.range 10).map fun j => w.extractLsb' (8 * (9 - j)) 8

/-- The command word of ten bytes written most significant first; any other number of bytes is no word (R70). -/
def wordOfBytes (bs : List Byte) : Option CommandWord :=
  if bs.length = 10 then some (bs.foldl (fun acc b => acc <<< 8 ||| b.setWidth 80) 0#80) else none

/-- The host's question: what the decoder reads from an instruction whose bits are `w`. A command word is
presented whole (R70), so the table's bit numbers are the word's own. -/
def decodeTableWord (nbits w : Nat) : Option Instr :=
  match decode (BitVec.ofNat 80 (w % 2 ^ nbits)) with
  | .ok i => some i
  | .error _ => none

end Sys2Proof
end

