-- ==== Sys2Proof/Machine/Operands.lean ====
section
/-! DEFINITION. The operand arithmetic of `00_scope.md` section 5 and the little-endian rearrangement of
`42_put_le.md` R92. Everything is unsigned (`00_scope.md` R6). -/

namespace Sys2Proof.Machine

/-- `mask(n) = 2^n − 1`, in `w` bits (`00_scope.md` section 5). -/
def mask (w n : Nat) : BitVec w := BitVec.ofNat w (2 ^ n - 1)

/-- `shl64(x, k)`: bits shifted out at the top are lost, and a shift by 64 gives 0 (`00_scope.md` section 5). -/
def shl64 (x : BitVec 64) (k : Nat) : BitVec 64 := x <<< k

/-- `shr32(x, k)`: a shift by 32 gives 0 (`00_scope.md` section 5). -/
def shr32 (x : BitVec 32) (k : Nat) : BitVec 32 := x >>> k

/-- `zext_64(v)` (`00_scope.md` section 5). -/
def zext64 (v : BitVec 32) : BitVec 64 := v.setWidth 64

/-- `ceil8(f) = (f + 7) div 8` (`00_scope.md` section 5). -/
def ceil8 (f : Nat) : Nat := (f + 7) / 8

/-- `floor8(f) = f div 8` (`00_scope.md` section 5). -/
def floor8 (f : Nat) : Nat := f / 8

/-- `value[63:32]` of a 64-bit operand (`30_encoding.md` R61, format `P64`). -/
def highHalf (v : BitVec 64) : BitVec 32 := v.extractLsb' 32 32

/-- `value[31:0]` of a 64-bit operand. -/
def lowHalf (v : BitVec 64) : BitVec 32 := v.extractLsb' 0 32

/-- Byte `j` of a 32-bit value, byte 0 the least significant. -/
def byteOf32 (m : BitVec 32) (j : Nat) : Byte := m.extractLsb' (8 * j) 8

/-- `bswap32(x)`: the four bytes in reversed order (`00_scope.md` section 5). -/
def bswap32 (x : BitVec 32) : BitVec 32 :=
  byteOf32 x 0 ++ byteOf32 x 1 ++ byteOf32 x 2 ++ byteOf32 x 3

/-- The `k` low whole bytes of `m`, least significant first, as a number of `8k` bits (`42_put_le.md` R92). -/
def wholeBytesLsbFirst (m : BitVec 32) : Nat → BitVec 32
  | 0 => 0#32
  | k + 1 => wholeBytesLsbFirst m k <<< 8 ||| (byteOf32 m k).setWidth 32

/-- `le32(n, v)`: the `n div 8` whole low-order bytes of the masked value, least significant first, followed by
its `n mod 8` remaining high-order bits (`42_put_le.md` R92, the first of its two forms). -/
def le32 (n : Nat) (v : BitVec 32) : BitVec 32 :=
  wholeBytesLsbFirst (v &&& mask 32 n) (n / 8) <<< (n % 8) ||| shr32 (v &&& mask 32 n) (8 * (n / 8))

/-- The upper `a = 8·(n div 8)` bits of the swapped value: `hi` in the second form of `42_put_le.md` R92. -/
def le32SwappedHigh (n : Nat) (v : BitVec 32) : BitVec 32 :=
  shr32 (bswap32 (v &&& mask 32 n)) (32 - 8 * (n / 8))

/-- The remainder bits of the swapped value: `lo` in the second form of `42_put_le.md` R92, 0 when `n mod 8 = 0`. -/
def le32SwappedLow (n : Nat) (v : BitVec 32) : BitVec 32 :=
  if n % 8 = 0 then 0#32
  else shr32 (bswap32 (v &&& mask 32 n)) (24 - 8 * (n / 8)) &&& mask 32 (n % 8)

/-- `le32` in the source's terms, by a byte swap and two fragments: the second form of `42_put_le.md` R92. -/
def le32BySwap (n : Nat) (v : BitVec 32) : BitVec 32 :=
  le32SwappedHigh n v * BitVec.ofNat 32 (2 ^ (n % 8)) + le32SwappedLow n v

/-- The `n` bytes of an `8n`-bit value, most significant first (`20_memory.md` R33). -/
def bytesMsbFirst (n : Nat) (v : BitVec (8 * n)) : List Byte :=
  (List.range n).map fun i => v.extractLsb' (8 * (n - 1 - i)) 8

end Sys2Proof.Machine
end

