-- ==== Sys2Proof/Machine/State.lean ====
section
/-! DEFINITION. The state of the block, its statuses, and the machine right after power-on reset. -/

namespace Sys2Proof.Machine

/-- The four outcomes a response names (`30_encoding.md` R67). A status is a value returned, never a trap and
never stored by the block (`10_state.md` R17, `60_exceptions.md` R117). -/
inductive Status where
  /-- The source's success. -/
  | ok
  /-- More was produced than the destination holds; answered by `FLUSH` and `WRB` (`60_exceptions.md` R118). -/
  | overflow
  /-- The stream is not a whole number of bytes; answered by `FLUSH` and `WRB` (`60_exceptions.md` R119). -/
  | underflow
  /-- The word is reserved (`60_exceptions.md` R120). -/
  | illegal
  deriving DecidableEq, Repr

/-- Why the machine would stop with a fault. It has NO constructor: "The block has no exception, trap or fault in
the processor sense" (`60_exceptions.md` R117), and no access outside the destination is ever made
(`20_memory.md` R37, R40). Safe. -/
inductive Fault where
  deriving DecidableEq, Repr

/-- Why the machine would refuse. Only an instruction without a meaning is refused, and every instruction of this
model has its meaning, so nothing raises it. Safe. -/
inductive Refusal where
  /-- The instruction has no meaning in the model; it would be raised by `exec`'s arm and by nothing else. Safe. -/
  | notModelled (mnemonic : String)
  deriving DecidableEq, Repr

/-- The destination: pairs of an offset and a byte, offsets strictly rising. An offset that is not listed reads as
no value, because the block never wrote it and its content is the host's (`20_memory.md` R44,
`70_reset_and_hazards.md` R137; log 5). -/
abbrev Memory := List Host.Cell

/-- The whole state. The first four fields are the block's registers (`10_state.md` R10 to R14), `dst` is the
destination (`20_memory.md` R30), the next four are the channels of `30_encoding.md` R60 as sequences, and
`freeCount` is the model's own. -/
structure State where
  /-- `CACHE`, left-justified (R10, R12). -/
  cache : BitVec 64
  /-- `FILL`, the count of pending bits, 0 to 64 (R11). -/
  fill : BitVec 7
  /-- `INDEX`, the offset of the next drained byte; it may pass `LEN` (R14, R15). -/
  index : BitVec 32
  /-- `LEN`, the length of the bound destination (R13). -/
  len : BitVec 32
  /-- `DST`, the destination bytes (R30). -/
  dst : Memory
  /-- `CMD`: the command words presented and not yet answered, the current one first (R60; log 3). -/
  cmd : List CommandWord
  /-- `PAY`: the payload bytes supplied and not yet consumed (R60, R65). -/
  pay : List Byte
  /-- `RSP`: the responses produced, oldest first (R60, R66). -/
  rsp : List ResponseWord
  /-- `DSTW`: the write events, oldest first (R60, R45). -/
  dstw : List Host.Cell
  /-- The model's own: how many free values have been drawn (log 1, log 2). -/
  freeCount : Nat
  deriving DecidableEq, Repr

/-- The machine after power-on reset (`10_state.md` R22, `70_reset_and_hazards.md` R136): the four registers are
zero, no destination byte is known (R137), nothing has been presented, answered or written (log 13). -/
def State.reset : State where
  cache := 0#64
  fill := 0#7
  index := 0#32
  len := 0#32
  dst := []
  cmd := []
  pay := []
  rsp := []
  dstw := []
  freeCount := 0

end Sys2Proof.Machine
end

