-- ==== Sys2Proof/Machine/Flags.lean ====
section
/-! DEFINITION. The block has no flag (`10_state.md` R17). What stands in a flag's place are the statuses and
numbers of a response, computed here from the state (`44_flush.md` R100, `10_state.md` R18). -/

namespace Sys2Proof.Machine

/-- The number of a status in the response word (`30_encoding.md` R67). -/
def statusCode : Status → BitVec 2
  | .ok => 0#2
  | .overflow => 1#2
  | .underflow => 2#2
  | .illegal => 3#2

/-- The response word: `STATUS` in bits 73 to 72, `V1` in 71 to 36, `V0` in 35 to 0 (`30_encoding.md` R66). -/
def responseWord (st : Status) (v0 v1 : BitVec 36) : ResponseWord :=
  statusCode st ++ v1 ++ v0

/-- `STATUS` of a response word. -/
def rspStatus (r : ResponseWord) : BitVec 2 := r.extractLsb' 72 2

/-- `V1` of a response word. -/
def rspV1 (r : ResponseWord) : BitVec 36 := r.extractLsb' 36 36

/-- `V0` of a response word. -/
def rspV0 (r : ResponseWord) : BitVec 36 := r.extractLsb' 0 36

/-- The position `INDEX·8 + FILL` (`46_introspection_reset.md` R109). -/
def position (s : State) : Nat := s.index.toNat * 8 + s.fill.toNat

/-- The remaining bits, clamped at zero (`46_introspection_reset.md` R110). -/
def remainingBits (s : State) : Nat :=
  s.len.toNat * 8 - min (position s) (s.len.toNat * 8)

/-- The consumed bytes `c`, where the tail begins (`46_introspection_reset.md` R111). -/
def consumedBytes (s : State) : Nat :=
  min (s.index.toNat + floor8 s.fill.toNat) s.len.toNat

/-- Steps 2 to 4 of `FLUSH_CORE`: Overflow is tested before Underflow (`44_flush.md` R100, `60_exceptions.md` R123). -/
def flushStatus (s : State) : Status :=
  if s.len.toNat < s.index.toNat + ceil8 s.fill.toNat then .overflow
  else if s.fill ≠ 0#7 then .underflow
  else .ok

/-- The status of the copy of `WRB`: Overflow when fewer than `L` bytes fitted (`45_write_bytes.md` R105). -/
def copyStatus (copied l : Nat) : Status :=
  if copied = l then .ok else .overflow

end Sys2Proof.Machine
end

