-- ==== Sys2Proof/Machine/Ops.lean ====
section
/-! DEFINITION. The named operations over the destination, the registers and the channels. The block takes no
exception (`60_exceptions.md` R117): what stands in that place is the one answer to a command, `respond`, and the
answer to a reserved word, `illegal`. -/

namespace Sys2Proof.Machine

/-- What offset `off` reads as: the byte listed there, and no value where none is listed (log 5). -/
def Memory.read : Memory → Nat → Option Byte
  | [], _ => none
  | c :: m, off => if c.1 = off then some c.2 else Memory.read m off

/-- One byte stored at offset `off`; all eight bits are replaced and no other byte changes (`20_memory.md` R33). -/
def Memory.write : Memory → Nat → Byte → Memory
  | [], off, b => [(off, b)]
  | c :: m, off, b =>
    if off < c.1 then (off, b) :: c :: m
    else if off = c.1 then (off, b) :: m
    else c :: Memory.write m off b

/-- The canonical form: offsets strictly rising. An unlisted offset reads as no value, so no entry can equal it. -/
abbrev Memory.wf (m : Memory) : Prop := List.Pairwise (fun a b : Host.Cell => a.1 < b.1) m

/-- The destination after a sequence of write events, oldest first (`20_memory.md` R45). -/
def Memory.applyEvents (m : Memory) (ev : List Host.Cell) : Memory :=
  ev.foldl (fun acc c => Memory.write acc c.1 c.2) m

/-- One byte written to the destination, and its write event (`20_memory.md` R33, R45). -/
def writeByte (off : Nat) (b : Byte) (s : State) : State :=
  { s with dst := Memory.write s.dst off b, dstw := s.dstw ++ [(off, b)] }

/-- A run of bytes written at ascending offsets from `off`, one event per byte (`20_memory.md` R33). -/
def writeBytes : Nat → List Byte → State → State
  | _, [], s => s
  | off, b :: bs, s => writeBytes (off + 1) bs (writeByte off b s)

/-- `MemWrite(off, n, v)`: `n` bytes, most significant first (`20_memory.md` R33). Its callers establish
`off + n ≤ LEN` first (R37). -/
def memWrite (off n : Nat) (v : BitVec (8 * n)) (s : State) : State :=
  writeBytes off (bytesMsbFirst n v) s

/-- `INDEX <- INDEX + d`, the sum taken on natural numbers. A sum that does not fit the 32 bits is outside the
envelope and has no stated result: `INDEX` takes a free value (`00_scope.md` R5, R6;
`93_implementation_defined.md` U3; log 1). -/
def advanceIndex (d : Nat) (s : State) : State :=
  if s.index.toNat + d < Config.indexLimit then
    { s with index := BitVec.ofNat 32 (s.index.toNat + d) }
  else
    { s with index := Config.indexBeyondEnvelope s.freeCount, freeCount := s.freeCount + 1 }

/-- The drain's `CACHE <- shl64(CACHE, k)` and `FILL <- FILL − k`: the top `k` bits leave the register
(`41_put_be.md` R86, `44_flush.md` R100). -/
def shiftOut (k : Nat) (s : State) : State :=
  { s with cache := shl64 s.cache k, fill := BitVec.ofNat 7 (s.fill.toNat - k) }

/-- The four bytes of `DRAIN32`, written all or not at all (`41_put_be.md` R86, `20_memory.md` R37). -/
def drain32Write (s : State) : State :=
  if s.index.toNat + 4 ≤ s.len.toNat then
    memWrite s.index.toNat 4 (s.cache.extractLsb' 32 32) s
  else s

/-- `DRAIN32()`: the top 32 bits leave the register as four bytes, written only if all four fit
(`41_put_be.md` R86). -/
def drain32 (s : State) : State :=
  shiftOut 32 (advanceIndex 4 (drain32Write s))

/-- Step 2 of `PUT_BE`: drain when `n` more bits would not fit in the register (`41_put_be.md` R87). -/
def drainFor (n : Nat) (s : State) : State :=
  if 64 < s.fill.toNat + n then drain32 s else s

/-- Steps 3 and 4 of `PUT_BE`: the `n`-bit number `m` directly below the pending bits (`41_put_be.md` R87). -/
def appendBits (n : Nat) (m : BitVec 32) (s : State) : State :=
  { s with
    cache := s.cache ||| shl64 (zext64 m) (64 - s.fill.toNat - n)
    fill := BitVec.ofNat 7 (s.fill.toNat + n) }

/-- `PUT_BE(n, v)` (`41_put_be.md` R87). -/
def insertBe (n : Nat) (v : BitVec 32) (s : State) : State :=
  appendBits n (v &&& mask 32 n) (drainFor n s)

/-- `PUT_LE(n, v)` (`42_put_le.md` R93). -/
def insertLe (n : Nat) (v : BitVec 32) (s : State) : State :=
  insertBe n (le32 n v) s

/-- One turn of the loop of `FLUSH_CORE` (`44_flush.md` R100, step 1). -/
def flushByte (s : State) : State :=
  shiftOut 8 (advanceIndex 1 (memWrite s.index.toNat 1 (s.cache.extractLsb' 56 8) s))

/-- The loop of `FLUSH_CORE`, at most `fuel` times: while a whole byte is pending and fits (`44_flush.md` R100). -/
def flushLoop : Nat → State → State
  | 0, s => s
  | fuel + 1, s =>
    if 8 ≤ s.fill.toNat ∧ s.index.toNat < s.len.toNat then flushLoop fuel (flushByte s) else s

/-- Step 1 of `FLUSH_CORE`. Each turn lowers `FILL` by 8, so `FILL div 8` turns are all there can be
(`40_construction.md` R80). -/
def flushDrain (s : State) : State :=
  flushLoop (s.fill.toNat / 8) s

/-- `respond(S, V0, V1)`: ends an operation with its one response; the command word is answered and leaves the
channel (`30_encoding.md` R60, R66; log 3). -/
def respond (st : Status) (v0 v1 : BitVec 36) (s : State) : State :=
  { s with cmd := s.cmd.tail, rsp := s.rsp ++ [responseWord st v0 v1] }

/-- The answer to a reserved word: no register, destination byte or payload byte changes
(`30_encoding.md` R68, `60_exceptions.md` R120). -/
def illegal (s : State) : State := respond .illegal 0#36 0#36 s

/-- `LEN <- N` and the data path cleared (`40_construction.md` R81; `CACHE` by its decision D7). -/
def bindDestination (n : BitVec 32) (s : State) : State :=
  { s with len := n, cache := 0#64, fill := 0#7, index := 0#32 }

/-- The data path cleared, `LEN` kept (`46_introspection_reset.md` R112). -/
def clearDataPath (s : State) : State :=
  { s with fill := 0#7, index := 0#32, cache := 0#64 }

/-- The payload of a `WRB` leaves the channel `PAY`, whatever the outcome (`30_encoding.md` R65). -/
def consumePayload (l : Nat) (s : State) : State :=
  { s with pay := s.pay.drop l }

/-- How many of `l` bytes fit between `INDEX` and `LEN` (`45_write_bytes.md` R105, step 3). -/
def bytesThatFit (l : Nat) (s : State) : Nat :=
  min l (s.len.toNat - s.index.toNat)

/-- Step 3 of `WRB`, after a flush that returned OK: the bytes of `p` that fit are copied, and `INDEX` advances by
all of them (`45_write_bytes.md` R105). -/
def copyPayload (p : List Byte) (s : State) : State :=
  advanceIndex p.length (writeBytes s.index.toNat (p.take (bytesThatFit p.length s)) s)

/-- `WRB` with the payload `p` in hand: flush, then copy or propagate the flush's status (`45_write_bytes.md` R105).
The payload is already off the channel. -/
def writePayload (p : List Byte) (s : State) : State :=
  match flushStatus (flushDrain s) with
  | .ok =>
    respond (copyStatus (bytesThatFit p.length (flushDrain s)) p.length)
      (BitVec.ofNat 36 (bytesThatFit p.length (flushDrain s))) 0#36 (copyPayload p (flushDrain s))
  | st => respond st 0#36 0#36 (flushDrain s)

/-- Power-on reset, an event from outside: the four registers become zero, there is no response and no write
(`70_reset_and_hazards.md` R136). -/
def powerOn (s : State) : State :=
  { s with cache := 0#64, fill := 0#7, index := 0#32, len := 0#32 }

/-- The host presents a command word, and with a `WRB` its payload (`30_encoding.md` R60, R65). -/
def State.present (w : CommandWord) (payload : List Byte) (s : State) : State :=
  { s with cmd := s.cmd ++ [w], pay := s.pay ++ payload }

/-- How many payload bytes a command word brings on `PAY`: `L` for a `WRB`, none for every other word
(`30_encoding.md` R65). -/
def payloadLength (w : CommandWord) : Nat :=
  match decode w with
  | .ok (.wrb l) => l.toNat
  | .ok _ => 0
  | .error _ => 0

/-- The host presents a word ahead of all that is waiting, with the payload it needs. -/
def State.presentFirst (w : CommandWord) (payload : List Byte) (s : State) : State :=
  { s with cmd := w :: s.cmd, pay := payload ++ s.pay }

/-- The command word the block takes next: the first that is presented and not yet answered
(`30_encoding.md` R60). -/
def nextCommand (s : State) : Option CommandWord := s.cmd.head?

/-- Between commands the block is idle and loses nothing (`60_exceptions.md` R128, `10_state.md` R24). -/
def idle (s : State) : State := s

end Sys2Proof.Machine
end

