-- ==== Sys2Proof/Machine/Construction.lean ====
section
/-! DEFINITION. `INIT` and `INITH` (`40_construction.md`). -/

namespace Sys2Proof.Machine

/-- `INIT N` (`40_construction.md` R81): legal at any time, pending bits are dropped (R82), `DST` is not touched. -/
def execInit (n : BitVec 32) (s : State) : Host.Outcome State Fault Refusal :=
  .next (respond .ok 0#36 0#36 (bindDestination n s))

/-- `INITH N, HINT` (`40_construction.md` R83): exactly `INIT N`; the hint is read by nothing and stored nowhere. -/
def execInith (n _hint : BitVec 32) (s : State) : Host.Outcome State Fault Refusal :=
  .next (respond .ok 0#36 0#36 (bindDestination n s))

end Sys2Proof.Machine
end

