-- ==== Sys2Proof/Machine/Flush.lean ====
section
/-! DEFINITION. `FLUSH` and `WRB` (`44_flush.md`, `45_write_bytes.md`): the only commands that answer Overflow or
Underflow (`60_exceptions.md` R118, R119). -/

namespace Sys2Proof.Machine

/-- `FLUSH` (`44_flush.md` R101): `FLUSH_CORE`, whose writes stand whatever the status. -/
def execFlush (s : State) : Host.Outcome State Fault Refusal :=
  .next (respond (flushStatus (flushDrain s)) 0#36 0#36 (flushDrain s))

/-- `WRB` (`45_write_bytes.md` R105). With fewer than `L` bytes on `PAY` the block waits for the rest: the command
does not complete and nothing changes (`30_encoding.md` R65; log 4). -/
def execWrb (l : BitVec 32) (s : State) : Host.Outcome State Fault Refusal :=
  if s.pay.length < l.toNat then .next s
  else .next (writePayload (s.pay.take l.toNat) (consumePayload l.toNat s))

end Sys2Proof.Machine
end

