-- ==== Sys2Proof/Machine/Insertion.lean ====
section
/-! DEFINITION. `PUT.BE`, `PUT.LE`, `PUT64.BE` and `PUT64.LE` (`41_put_be.md` to `43_put64.md`). An insertion always
answers OK, also when its drain is discarded (R88); a count out of range is a reserved word, answered ILLEGAL
(`30_encoding.md` R64, R68; log 8). -/

namespace Sys2Proof.Machine

/-- `PUT.BE n, value` (`41_put_be.md` R88). -/
def execPutBe (n : BitVec 8) (value : BitVec 32) (s : State) : Host.Outcome State Fault Refusal :=
  if n.toNat ≤ Config.putMax then .next (respond .ok 0#36 0#36 (insertBe n.toNat value s))
  else .next (illegal s)

/-- `PUT.LE n, value` (`42_put_le.md` R94). -/
def execPutLe (n : BitVec 8) (value : BitVec 32) (s : State) : Host.Outcome State Fault Refusal :=
  if n.toNat ≤ Config.putMax then .next (respond .ok 0#36 0#36 (insertLe n.toNat value s))
  else .next (illegal s)

/-- The one or two insertions of `PUT64.BE`, the high part first (`43_put64.md` R97). -/
def insert64Be (n : Nat) (v : BitVec 64) (s : State) : State :=
  if 32 < n then insertBe 32 (lowHalf v) (insertBe (n - 32) (highHalf v) s)
  else insertBe n (lowHalf v) s

/-- The one or two insertions of `PUT64.LE`, the low part first (`43_put64.md` R98). -/
def insert64Le (n : Nat) (v : BitVec 64) (s : State) : State :=
  if 32 < n then insertLe (n - 32) (highHalf v) (insertLe 32 (lowHalf v) s)
  else insertLe n (lowHalf v) s

/-- `PUT64.BE n, value` (`43_put64.md` R97). -/
def execPut64Be (n : BitVec 8) (value : BitVec 64) (s : State) : Host.Outcome State Fault Refusal :=
  if n.toNat ≤ Config.put64Max then .next (respond .ok 0#36 0#36 (insert64Be n.toNat value s))
  else .next (illegal s)

/-- `PUT64.LE n, value` (`43_put64.md` R98). -/
def execPut64Le (n : BitVec 8) (value : BitVec 64) (s : State) : Host.Outcome State Fault Refusal :=
  if n.toNat ≤ Config.put64Max then .next (respond .ok 0#36 0#36 (insert64Le n.toNat value s))
  else .next (illegal s)

end Sys2Proof.Machine
end

