-- ==== Sys2Proof/Machine/Introspection.lean ====
section
/-! DEFINITION. `POS`, `REM`, `TAIL` and `RESET` (`46_introspection_reset.md`). The queries change no register and no
destination byte (R113). -/

namespace Sys2Proof.Machine

/-- `POS` (`46_introspection_reset.md` R109). -/
def execPos (s : State) : Host.Outcome State Fault Refusal :=
  .next (respond .ok (BitVec.ofNat 36 (position s)) 0#36 s)

/-- `REM` (`46_introspection_reset.md` R110). -/
def execRem (s : State) : Host.Outcome State Fault Refusal :=
  .next (respond .ok (BitVec.ofNat 36 (remainingBits s)) 0#36 s)

/-- `TAIL` (`46_introspection_reset.md` R111): the offset and the length of the tail. -/
def execTail (s : State) : Host.Outcome State Fault Refusal :=
  .next (respond .ok (BitVec.ofNat 36 (consumedBytes s)) (BitVec.ofNat 36 (s.len.toNat - consumedBytes s)) s)

/-- `RESET` (`46_introspection_reset.md` R112): `LEN` and `DST` stay. -/
def execReset (s : State) : Host.Outcome State Fault Refusal :=
  .next (respond .ok 0#36 0#36 (clearDataPath s))

end Sys2Proof.Machine
end

