-- ==== Sys2Proof/Machine/Dispatch.lean ====
section
/-! DEFINITION. One arm per instruction, each a direct call of its meaning. -/

namespace Sys2Proof.Machine

def exec (i : Instr) (s : State) : Host.Outcome State Fault Refusal :=
  match i with
  | .init n => Sys2Proof.Machine.execInit n s
  | .inith n hint => Sys2Proof.Machine.execInith n hint s
  | .reset => Sys2Proof.Machine.execReset s
  | .putBe n value => Sys2Proof.Machine.execPutBe n value s
  | .putLe n value => Sys2Proof.Machine.execPutLe n value s
  | .put64Be n value => Sys2Proof.Machine.execPut64Be n value s
  | .put64Le n value => Sys2Proof.Machine.execPut64Le n value s
  | .flush => Sys2Proof.Machine.execFlush s
  | .wrb l => Sys2Proof.Machine.execWrb l s
  | .pos => Sys2Proof.Machine.execPos s
  | .rem => Sys2Proof.Machine.execRem s
  | .tail => Sys2Proof.Machine.execTail s

end Sys2Proof.Machine
end

