-- ==== Sys2Proof/Machine/Step.lean ====
section
/-! DEFINITION. One step: the block takes the next command word and runs it to its response. -/

namespace Sys2Proof.Machine

/-- One step of the block (`10_state.md` R24, `20_memory.md` R41). With no command presented it is idle; a reserved
word is answered ILLEGAL (`30_encoding.md` R68); every other word is its instruction, run whole. -/
def step (s : State) : Host.Outcome State Fault Refusal :=
  match nextCommand s with
  | none => .next (idle s)
  | some w =>
    match decode w with
    | .error _ => .next (illegal s)
    | .ok i => exec i s

/-- `s` with the word `w` presented as the next command. A `WRB` word is accompanied by its `L` payload bytes
(`30_encoding.md` R65), here zeros, so that the next step runs it (log 12). -/
def State.withFetchWord (s : State) (nbits w : Nat) : State :=
  State.presentFirst (BitVec.ofNat 80 (w % 2 ^ nbits))
    (List.replicate (payloadLength (BitVec.ofNat 80 (w % 2 ^ nbits))) 0#8) s

end Sys2Proof.Machine
end

