-- ==== Sys2Proof/Machine/Assembler.lean ====
section
/-! DEFINITION. The assembler of `30_encoding.md` R71 and the aliases of R72, with which a host writes the commands
it presents. No step of the block uses this file. -/

namespace Sys2Proof.Machine

/-- One line of assembly: a command with its operands as the numbers written (`30_encoding.md` R71). -/
inductive AsmLine where
  | init (n : Nat)
  | inith (n hint : Nat)
  | reset
  | putBe (n value : Nat)
  | putLe (n value : Nat)
  | put64Be (n value : Nat)
  | put64Le (n value : Nat)
  | flush
  | wrb (payload : List Byte)
  | pos
  | rem
  | tail
  deriving DecidableEq, Repr

/-- The source's operations, by their names there, as other spellings of the commands (`30_encoding.md` R72). -/
inductive SourceCall where
  | create (length : Nat)
  | createWithCapacityHint (length cacheBudget : Nat)
  | putBitsBigEndian (bitsCount value : Nat)
  | putBitsLittleEndian (bitsCount value : Nat)
  | putBits64BigEndian (bitsCount value : Nat)
  | putBits64LittleEndian (bitsCount value : Nat)
  | flush
  | writeBytes (bytes : List Byte)
  | bitPosition
  | remainingBits
  | unwrittenTail
  | reset
  deriving DecidableEq, Repr

/-- The one command an alias stands for (`30_encoding.md` R72). -/
def aliasedCommand : SourceCall → AsmLine
  | .create n => .init n
  | .createWithCapacityHint n h => .inith n h
  | .putBitsBigEndian n v => .putBe n v
  | .putBitsLittleEndian n v => .putLe n v
  | .putBits64BigEndian n v => .put64Be n v
  | .putBits64LittleEndian n v => .put64Le n v
  | .flush => .flush
  | .writeBytes p => .wrb p
  | .bitPosition => .pos
  | .remainingBits => .rem
  | .unwrittenTail => .tail
  | .reset => .reset

/-- The instruction of a line, and none where an operand is outside its field's range (`30_encoding.md` R71). -/
def assembleInstr : AsmLine → Option Instr
  | .init n => if n < 2 ^ 32 then some (.init (BitVec.ofNat 32 n)) else none
  | .inith n h =>
    if n < 2 ^ 32 ∧ h < 2 ^ 32 then some (.inith (BitVec.ofNat 32 n) (BitVec.ofNat 32 h)) else none
  | .reset => some .reset
  | .putBe n v =>
    if n ≤ Config.putMax ∧ v < 2 ^ 32 then some (.putBe (BitVec.ofNat 8 n) (BitVec.ofNat 32 v)) else none
  | .putLe n v =>
    if n ≤ Config.putMax ∧ v < 2 ^ 32 then some (.putLe (BitVec.ofNat 8 n) (BitVec.ofNat 32 v)) else none
  | .put64Be n v =>
    if n ≤ Config.put64Max ∧ v < 2 ^ 64 then some (.put64Be (BitVec.ofNat 8 n) (BitVec.ofNat 64 v)) else none
  | .put64Le n v =>
    if n ≤ Config.put64Max ∧ v < 2 ^ 64 then some (.put64Le (BitVec.ofNat 8 n) (BitVec.ofNat 64 v)) else none
  | .flush => some .flush
  | .wrb p => if p.length < 2 ^ 32 then some (.wrb (BitVec.ofNat 32 p.length)) else none
  | .pos => some .pos
  | .rem => some .rem
  | .tail => some .tail

/-- The payload a line brings (`30_encoding.md` R65, R71). -/
def assemblePayload : AsmLine → List Byte
  | .wrb p => p
  | .init _ => []
  | .inith _ _ => []
  | .reset => []
  | .putBe _ _ => []
  | .putLe _ _ => []
  | .put64Be _ _ => []
  | .put64Le _ _ => []
  | .flush => []
  | .pos => []
  | .rem => []
  | .tail => []

/-- The command word and the payload of a line, or none where the assembler rejects it (`30_encoding.md` R71). -/
def assemble (a : AsmLine) : Option (CommandWord × List Byte) :=
  (assembleInstr a).map fun i => (encode i, assemblePayload a)

/-- The value of a digit, decimal or hexadecimal. -/
def digitValue (c : Char) : Option Nat :=
  if '0' ≤ c ∧ c ≤ '9' then some (c.toNat - 48)
  else if 'a' ≤ c ∧ c ≤ 'f' then some (c.toNat - 87)
  else if 'A' ≤ c ∧ c ≤ 'F' then some (c.toNat - 55)
  else none

/-- The number a run of digits continues, in the given base; none at the first character that is no digit. -/
def parseDigits (base : Nat) : Nat → List Char → Option Nat
  | acc, [] => some acc
  | acc, c :: cs =>
    match digitValue c with
    | some d => if d < base then parseDigits base (acc * base + d) cs else none
    | none => none

/-- A number: decimal, or hexadecimal after `0x` (`30_encoding.md` R71). -/
def parseNumber : List Char → Option Nat
  | [] => none
  | '0' :: 'x' :: c :: cs => parseDigits 16 0 (c :: cs)
  | c :: cs => parseDigits 10 0 (c :: cs)

/-- A payload byte: exactly two hexadecimal digits (`30_encoding.md` R71). -/
def parseByte : List Char → Option Byte
  | [a, b] => (parseDigits 16 0 [a, b]).map (BitVec.ofNat 8)
  | _ => none

/-- The words of a line, split at spaces, tabs and commas; a `;` starts a comment (log 16). -/
def asmTokens : List Char → List Char → List (List Char)
  | word, [] => if word = [] then [] else [word]
  | word, c :: cs =>
    if c = ';' then (if word = [] then [] else [word])
    else if c = ' ' ∨ c = ',' ∨ c = '\t' then
      (if word = [] then asmTokens [] cs else word :: asmTokens [] cs)
    else asmTokens (word ++ [c]) cs

/-- A line without operands. -/
def parseNone (l : AsmLine) : List (List Char) → Option AsmLine
  | [] => some l
  | _ :: _ => none

/-- A line with one number. -/
def parseOne (f : Nat → AsmLine) : List (List Char) → Option AsmLine
  | [a] => (parseNumber a).map f
  | _ => none

/-- A line with two numbers. -/
def parseTwo (f : Nat → Nat → AsmLine) : List (List Char) → Option AsmLine
  | [a, b] =>
    match parseNumber a, parseNumber b with
    | some x, some y => some (f x y)
    | _, _ => none
  | _ => none

/-- The operands of a mnemonic (`30_encoding.md` R71). -/
def parseOperands (m : List Char) (ops : List (List Char)) : Option AsmLine :=
  if m = "INIT".toList then parseOne .init ops
  else if m = "INITH".toList then parseTwo .inith ops
  else if m = "RESET".toList then parseNone .reset ops
  else if m = "PUT.BE".toList then parseTwo .putBe ops
  else if m = "PUT.LE".toList then parseTwo .putLe ops
  else if m = "PUT64.BE".toList then parseTwo .put64Be ops
  else if m = "PUT64.LE".toList then parseTwo .put64Le ops
  else if m = "FLUSH".toList then parseNone .flush ops
  else if m = "WRB".toList then (ops.mapM parseByte).map .wrb
  else if m = "POS".toList then parseNone .pos ops
  else if m = "REM".toList then parseNone .rem ops
  else if m = "TAIL".toList then parseNone .tail ops
  else none

/-- One line of assembly text (`30_encoding.md` R71). -/
def parseLine (line : List Char) : Option AsmLine :=
  match asmTokens [] line with
  | [] => none
  | m :: ops => parseOperands m ops

/-- The host presents the commands of a program in order; none where a line is rejected (`30_encoding.md` R73). -/
def presentProgram : List AsmLine → State → Option State
  | [], s => some s
  | a :: as, s =>
    match assemble a with
    | some c => presentProgram as (State.present c.1 c.2 s)
    | none => none

end Sys2Proof.Machine
end

