-- ==== Sys2Proof/Safety.lean ====
section
/-! DEFINITION. What the claims speak of: the machine's invariant, the envelope, the stream of bits that the
commands define, and what a run that stays inside the source's behaviour is. -/

namespace Sys2Proof.Machine

/-- Every bit of `CACHE` below the pending bits is zero (`10_state.md` R12): shifted up by `FILL`, nothing is left. -/
abbrev LeftJustified (s : State) : Prop := s.cache <<< s.fill.toNat = 0#64

/-- The machine's invariant: `FILL` is at most 64 (`10_state.md` R11), `CACHE` is left-justified (R12), and the
destination is in its canonical form with offsets of at most 32 bits (`20_memory.md` R30). -/
abbrev MachineInv (s : State) : Prop :=
  s.fill.toNat ≤ 64 ∧ LeftJustified s ∧ Memory.wf s.dst ∧ ∀ c ∈ s.dst, c.1 < 4294967296

/-- What persists after an Overflow (`60_exceptions.md` R126): `INDEX + ceil8(FILL) > LEN`. -/
abbrev Overflowed (s : State) : Prop := s.len.toNat < s.index.toNat + ceil8 s.fill.toNat

/-- The same registers, the same destination and the same write events. -/
abbrev SameBlock (t u : State) : Prop :=
  t.cache = u.cache ∧ t.fill = u.fill ∧ t.index = u.index ∧ t.len = u.len ∧ t.dst = u.dst ∧ t.dstw = u.dstw

/-- The current command was answered with the response `r`, once (`30_encoding.md` R66). -/
abbrev AnswersWith (r : ResponseWord) (s t : State) : Prop :=
  t.cmd = s.cmd.tail ∧ t.rsp = s.rsp ++ [r]

/-- `v[n − 1 : 0]`, most significant bit first (`41_put_be.md` R90). -/
def beBits {w : Nat} (n : Nat) (v : BitVec w) : List Bool :=
  (List.range n).map fun i => v.getLsbD (n - 1 - i)

/-- The little-endian form of the `n` low bits of `v`, for any width: the whole bytes from least to most significant,
each most significant bit first, then the leftover top bits (`42_put_le.md` R95, last paragraph). -/
def leBits {w : Nat} (n : Nat) (v : BitVec w) : List Bool :=
  ((List.range (n / 8)).flatMap fun j => (List.range 8).map fun i => v.getLsbD (8 * j + (7 - i)))
    ++ (List.range (n % 8)).map fun i => v.getLsbD (n - 1 - i)

/-- The bits of a byte in stream order (`20_memory.md` R34). -/
def byteBits (b : Byte) : List Bool := beBits 8 b

/-- The payload's bytes as they enter the stream (`45_write_bytes.md` R106). -/
def payloadBits (p : List Byte) : List Bool := p.flatMap byteBits

/-- The pending bits of `CACHE`, oldest first (`10_state.md` R10). -/
def pendingBits (s : State) : List Bool :=
  (List.range s.fill.toNat).map fun j => s.cache.getMsbD j

/-- The bits an insertion command carries; none for a command that is no insertion, or whose count is out of range. -/
def insertedBits : Instr → List Bool
  | .putBe n v => if n.toNat ≤ 32 then beBits n.toNat v else []
  | .putLe n v => if n.toNat ≤ 32 then leBits n.toNat v else []
  | .put64Be n v => if n.toNat ≤ 64 then beBits n.toNat v else []
  | .put64Le n v => if n.toNat ≤ 64 then leBits n.toNat v else []
  | .init _ => []
  | .inith _ _ => []
  | .reset => []
  | .flush => []
  | .wrb _ => []
  | .pos => []
  | .rem => []
  | .tail => []

/-- The command adds bits to the stream by inserting them into the register. -/
def isInsertion : Instr → Bool
  | .putBe _ _ => true
  | .putLe _ _ => true
  | .put64Be _ _ => true
  | .put64Le _ _ => true
  | .init _ => false
  | .inith _ _ => false
  | .reset => false
  | .flush => false
  | .wrb _ => false
  | .pos => false
  | .rem => false
  | .tail => false

/-- The command begins a new stream: `INIT`, `INITH` and `RESET` (`10_state.md` R15). -/
def startsStream : Instr → Bool
  | .init _ => true
  | .inith _ _ => true
  | .reset => true
  | .putBe _ _ => false
  | .putLe _ _ => false
  | .put64Be _ _ => false
  | .put64Le _ _ => false
  | .flush => false
  | .wrb _ => false
  | .pos => false
  | .rem => false
  | .tail => false

/-- A `FLUSH` in this state returns OK: the stream is a whole number of bytes and fits (`44_flush.md` R104). -/
abbrev FlushSucceeds (s : State) : Prop := position s % 8 = 0 ∧ position s ≤ 8 * s.len.toNat

/-- The bits a command appends to the stream in state `s`. A `WRB` appends its payload when its flush succeeds and
its `L` bytes are there (`45_write_bytes.md` R105), also those that a truncated copy drops (R106). -/
def appendedBits (i : Instr) (s : State) : List Bool :=
  match i with
  | .wrb l =>
    if l.toNat ≤ s.pay.length ∧ FlushSucceeds s then payloadBits (s.pay.take l.toNat) else []
  | j => insertedBits j

/-- The stream after a command, when `S` is the stream before it (`41_put_be.md` R90, `44_flush.md` R103). -/
def streamAfter (i : Instr) (s : State) (S : List Bool) : List Bool :=
  if startsStream i then [] else S ++ appendedBits i s

/-- How often `DRAIN32` runs in an insertion of `n` bits, at most 64: it runs when the next at most 32 bits do not fit in
the register, and each run makes room for 32 more (`41_put_be.md` R86, R87; `43_put64.md` R97, R98). -/
def drainCount (n : Nat) (s : State) : Nat :=
  if 96 < s.fill.toNat + n then 2 else if 64 < s.fill.toNat + n then 1 else 0

/-- How many bytes the loop of `FLUSH_CORE` drains: those pending, or those that fit (`44_flush.md` R104). -/
def flushCount (s : State) : Nat := min (s.fill.toNat / 8) (s.len.toNat - s.index.toNat)

/-- What a command adds to `INDEX`: `DRAIN32` 4, each `FLUSH` step 1, the copy of a `WRB` `L`, every other command nothing
(`10_state.md` R15). A `WRB` that waits for its payload adds nothing, one whose flush fails adds what the flush does. -/
def indexAdvance (i : Instr) (s : State) : Nat :=
  match i with
  | .putBe _ _ => 4 * drainCount (insertedBits i).length s
  | .putLe _ _ => 4 * drainCount (insertedBits i).length s
  | .put64Be _ _ => 4 * drainCount (insertedBits i).length s
  | .put64Le _ _ => 4 * drainCount (insertedBits i).length s
  | .flush => flushCount s
  | .wrb l => if s.pay.length < l.toNat then 0 else flushCount s + if FlushSucceeds s then l.toNat else 0
  | .init _ => 0
  | .inith _ _ => 0
  | .reset => 0
  | .pos => 0
  | .rem => 0
  | .tail => 0

/-- The command stays inside the specified envelope: `INDEX` holds what the command adds to it (`00_scope.md` R5,
`93_implementation_defined.md` U3). A command that adds nothing, and every `FLUSH`, is inside in every state. -/
abbrev InEnvelope (i : Instr) (s : State) : Prop := s.index.toNat + indexAdvance i s < Config.indexLimit

/-- The write events of a run of bytes written from offset `off` upward: one per byte, ascending
(`20_memory.md` R33, R45). -/
def eventsAt : Nat → List Byte → List Host.Cell
  | _, [] => []
  | off, b :: bs => (off, b) :: eventsAt (off + 1) bs

/-- The `k` oldest bytes of the register, the oldest first (`20_memory.md` R34). -/
def oldestBytes (k : Nat) (c : BitVec 64) : List Byte :=
  (List.range k).map fun j => c.extractLsb' (56 - 8 * j) 8

/-- The state holds the stream `S` (`41_put_be.md` R90, `44_flush.md` R103): its length is the position, its last `FILL` bits
are pending in `CACHE`, and unless the destination was too small its first `INDEX` bytes stand in the destination. -/
def StreamHolds (S : List Bool) (s : State) : Prop :=
  S.length = position s ∧
  S.drop (8 * s.index.toNat) = pendingBits s ∧
  (s.index.toNat ≤ s.len.toNat → ∀ j, j < s.index.toNat →
    ∃ b, Memory.read s.dst j = some b ∧ byteBits b = (S.drop (8 * j)).take 8)

/-- The instruction the next step runs, if a legal word is presented. -/
def nextInstr (s : State) : Option Instr :=
  match nextCommand s with
  | none => none
  | some w =>
    match decode w with
    | .ok i => some i
    | .error _ => none

/-- No command of the run was answered ILLEGAL: the run stayed in the behaviour the source defines
(`93_implementation_defined.md` U1, U2). -/
abbrev WithinSource (s : State) : Prop := ∀ r ∈ s.rsp, rspStatus r ≠ 3#2

end Sys2Proof.Machine
end

