-- ==== Sys2Proof/Certificates/Slice0/Obligations.lean ====
section
/-! DEFINITION. The statements for the provers. Each docstring names the rule of spec/ it formalises. -/

open Sys2Proof Sys2Proof.Machine

/-! ## Command words -/

/-- Decode and encode agree: every well-formed instruction, with every operand at every value its fields admit, is
read back from its word (`30_encoding.md` R61 to R64). -/
def Obligations.DecodeOfEncode : Prop :=
  ∀ i : Instr, i.wellFormed = true → decode (encode i) = .ok i

/-- A word that decodes is the word of the instruction it decodes to, which is well formed: each legal word has one
meaning and drops no bit (`30_encoding.md` R63, R74). -/
def Obligations.EncodeOfDecode : Prop :=
  ∀ (w : CommandWord) (i : Instr), decode w = .ok i → encode i = w ∧ i.wellFormed = true

/-- R74: every word either selects exactly one row of the opcode map (`30_encoding.md` R62), and decodes to an instruction of
that row with the word's operands, or selects none and is reserved. `decode` is a function of the word alone. -/
def Obligations.DecodeFollowsOpcodeMap : Prop :=
  ∀ w : CommandWord,
    (∃ r ∈ opcodeRows, r.selects w = true ∧ (∀ r' ∈ opcodeRows, r'.selects w = true → r' = r) ∧
      ∃ i, decode w = .ok i ∧ i.op = r.op ∧ encode i = w) ∨
    ((∀ r ∈ opcodeRows, r.selects w = false) ∧ ∃ e, decode w = .error e)

/-- R68: a word selects no row of the map exactly when one of the rule's conditions holds, and the step that takes such a
word answers `(ILLEGAL, 0, 0)`, changes no register, writes nothing and consumes no payload. The all-zero word is one. -/
def Obligations.ReservedWordsAnswerIllegal : Prop :=
  (∀ w : CommandWord,
    (∀ r ∈ opcodeRows, r.selects w = false) ↔
      (opcField w = 0#4 ∨ 0xB#4 ≤ opcField w) ∨
      zField w ≠ 0#3 ∨
      (eField w = 1#1 ∧ opcField w ≠ 4#4 ∧ opcField w ≠ 5#4) ∨
      (cntField w ≠ 0#8 ∧ opcField w ≠ 4#4 ∧ opcField w ≠ 5#4) ∨
      (32 < (cntField w).toNat ∧ opcField w = 4#4) ∨
      (64 < (cntField w).toNat ∧ opcField w = 5#4) ∨
      (datahField w ≠ 0#32 ∧ (opcField w = 1#4 ∨ opcField w = 4#4 ∨ opcField w = 7#4)) ∨
      (dataField w ≠ 0#64 ∧ (opcField w = 3#4 ∨ opcField w = 6#4 ∨ opcField w = 8#4 ∨ opcField w = 9#4 ∨ opcField w = 10#4))) ∧
  (∀ (s : State) (w : CommandWord) (rest : List CommandWord),
    s.cmd = w :: rest → (∀ r ∈ opcodeRows, r.selects w = false) →
      step s = .next { s with cmd := rest, rsp := s.rsp ++ [0x3000000000000000000#74] }) ∧
  (∀ r ∈ opcodeRows, r.selects 0#80 = false)

/-- The worked encodings of `30_encoding.md` section 4, written out from the spec, decode to the commands beside them. -/
def Obligations.WorkedEncodingsDecode : Prop :=
  decode 0x10000000000000000005#80 = .ok (.init 5#32) ∧
  decode 0x20000000001000000008#80 = .ok (.inith 8#32 16#32) ∧
  decode 0x40050000000000000015#80 = .ok (.putBe 5#8 0x15#32) ∧
  decode 0x480C0000000000000ABC#80 = .ok (.putLe 12#8 0xABC#32) ∧
  decode 0x5021FFFFFFFE00000001#80 = .ok (.put64Be 33#8 0xFFFFFFFE00000001#64) ∧
  decode 0x60000000000000000000#80 = .ok .flush ∧
  decode 0x70000000000000000003#80 = .ok (.wrb 3#32)

/-- A word written as ten bytes, most significant first, is read back whole (`30_encoding.md` R70). -/
def Obligations.WordBytesRoundTrip : Prop :=
  ∀ w : CommandWord,
    wordOfBytes (commandBytes w) = some w ∧
    (commandBytes w).head? = some (w.extractLsb' 72 8) ∧ (commandBytes w).getLast? = some (w.extractLsb' 0 8)

/-- The assembler rejects operands outside their fields' ranges, so it never emits a reserved word, and the payload it
sends has the length the word announces (`30_encoding.md` R71, R65). -/
def Obligations.AssemblerEmitsNoReservedWord : Prop :=
  ∀ (a : AsmLine) (w : CommandWord) (p : List Byte), assemble a = some (w, p) →
    ∃ i, assembleInstr a = some i ∧ decode w = .ok i ∧ payloadLength w = p.length

/-! ## One step -/

/-- When the word presented first decodes to an instruction, the step is `exec` of it, with nothing added; a reserved
word is answered ILLEGAL, and with no word presented the block is idle (`30_encoding.md` R60, R68; `60_exceptions.md` R128). -/
def Obligations.StepRunsDecodedCommand : Prop :=
  (∀ (s : State) (w : CommandWord) (rest : List CommandWord) (i : Instr),
    s.cmd = w :: rest → decode w = .ok i → step s = exec i s) ∧
  (∀ (s : State) (w : CommandWord) (rest : List CommandWord) (e : Reserved),
    s.cmd = w :: rest → decode w = .error e → step s = .next (illegal s)) ∧
  (∀ s : State, s.cmd = [] → step s = .next s)

/-- Every step has a next state: nothing faults and nothing is refused (`60_exceptions.md` R117, `40_construction.md` R80). -/
def Obligations.EveryStepCompletes : Prop :=
  ∀ s : State, ∃ t, step s = .next t

/-- Each command word is answered exactly once, in order; the one exception is a `WRB` whose payload has not all arrived,
which waits (`30_encoding.md` R60, R65, R66). That the waiting step leaves the state as it is, is THE MODEL'S form of the
wait (log 4): R65 says only that the block waits and the command does not complete. -/
def Obligations.EachCommandAnsweredOnce : Prop :=
  ∀ (s t : State) (w : CommandWord) (rest : List CommandWord),
    s.cmd = w :: rest → step s = .next t →
      (t.cmd = rest ∧ ∃ r, t.rsp = s.rsp ++ [r]) ∨
      (t = s ∧ ∃ l, decode w = .ok (.wrb l) ∧ s.pay.length < l.toNat)

/-- Who can answer which status (`30_encoding.md` R67, `60_exceptions.md` R118 to R121): Overflow and Underflow come only from
`FLUSH` and `WRB`, ILLEGAL only from a reserved word. -/
def Obligations.ErrorStatusesHaveTheirSources : Prop :=
  ∀ (s t : State) (r : ResponseWord), step s = .next t → t.rsp = s.rsp ++ [r] →
    ((rspStatus r = 1#2 ∨ rspStatus r = 2#2) →
      nextInstr s = some .flush ∨ ∃ l, nextInstr s = some (.wrb l)) ∧
    (rspStatus r = 3#2 → ∃ w e, s.cmd.head? = some w ∧ decode w = .error e)

/-- The fields of a response word and the numbers of the four statuses (`30_encoding.md` R66, R67). -/
def Obligations.ResponseWordFields : Prop :=
  (∀ (st : Status) (v0 v1 : BitVec 36),
    rspStatus (responseWord st v0 v1) = statusCode st ∧
    rspV0 (responseWord st v0 v1) = v0 ∧ rspV1 (responseWord st v0 v1) = v1) ∧
  statusCode .ok = 0#2 ∧ statusCode .overflow = 1#2 ∧ statusCode .underflow = 2#2 ∧ statusCode .illegal = 3#2

/-! ## Reset and binding -/

/-- Power-on reset: the four registers are zero, there is no response and no write (`70_reset_and_hazards.md` R136), and
`State.reset` has these registers. -/
def Obligations.PowerOnZeroesRegisters : Prop :=
  (∀ s : State,
    (powerOn s).cache = 0#64 ∧ (powerOn s).fill = 0#7 ∧ (powerOn s).index = 0#32 ∧ (powerOn s).len = 0#32 ∧
    (powerOn s).rsp = s.rsp ∧ (powerOn s).dst = s.dst ∧ (powerOn s).dstw = s.dstw) ∧
  State.reset.cache = 0#64 ∧ State.reset.fill = 0#7 ∧ State.reset.index = 0#32 ∧ State.reset.len = 0#32 ∧
  State.reset.rsp = [] ∧ State.reset.dstw = []

/-- A block bound to no byte writes nowhere, whatever command it takes (`10_state.md` R22, `40_construction.md` R81). -/
def Obligations.UnboundBlockWritesNowhere : Prop :=
  ∀ s t : State, s.len = 0#32 → step s = .next t → t.dst = s.dst ∧ t.dstw = s.dstw

/-- `INIT N` in any state, its effect and its frame (`40_construction.md` R81, R82). -/
def Obligations.InitBindsDestination : Prop :=
  ∀ (n : BitVec 32) (s : State),
    exec (.init n) s = .next { s with
      len := n, cache := 0#64, fill := 0#7, index := 0#32, cmd := s.cmd.tail, rsp := s.rsp ++ [0#74] }

/-- `INITH N, HINT` is `INIT N` for every hint (`40_construction.md` R83). -/
def Obligations.InithIgnoresItsHint : Prop :=
  ∀ (n hint : BitVec 32) (s : State),
    exec (.inith n hint) s = exec (.init n) s ∧
    exec (.inith n hint) s = .next { s with
      len := n, cache := 0#64, fill := 0#7, index := 0#32, cmd := s.cmd.tail, rsp := s.rsp ++ [0#74] }

/-- `RESET` in any state: the data path is cleared, `LEN` and the destination stay, as after `INIT LEN`
(`46_introspection_reset.md` R112). -/
def Obligations.ResetClearsDataPath : Prop :=
  ∀ s : State,
    exec .reset s = .next { s with
      cache := 0#64, fill := 0#7, index := 0#32, cmd := s.cmd.tail, rsp := s.rsp ++ [0#74] } ∧
    exec .reset s = exec (.init s.len) s

/-- `LEN` is written only by `INIT` and `INITH`, with their operand (`10_state.md` R13). -/
def Obligations.LenChangesOnlyAtBinding : Prop :=
  ∀ s t : State, step s = .next t →
    (∃ n, nextInstr s = some (.init n) ∧ t.len = n) ∨
    (∃ n h, nextInstr s = some (.inith n h) ∧ t.len = n) ∨
    t.len = s.len

/-! ## Insertions -/

/-- An insertion whose bits fit in the register, all four commands: the bits stand directly below the pending ones in the
order the command's selector gives, `FILL` grows by their number, and nothing else changes
(`41_put_be.md` R87, R88; `42_put_le.md` R94, R95; `43_put64.md` R97, R98). -/
def Obligations.InsertionFitsInRegister : Prop :=
  ∀ (i : Instr) (s : State),
    isInsertion i = true → i.wellFormed = true → LeftJustified s →
    s.fill.toNat + (insertedBits i).length ≤ 64 →
    ∃ t, exec i s = .next t ∧
      (∀ j, j < 64 → t.cache.getMsbD j =
        if j < s.fill.toNat then s.cache.getMsbD j
        else ((insertedBits i)[j - s.fill.toNat]?).getD false) ∧
      t.fill.toNat = s.fill.toNat + (insertedBits i).length ∧
      t = { s with cache := t.cache, fill := t.fill, cmd := s.cmd.tail, rsp := s.rsp ++ [0#74] }

/-- `PUT.BE` and `PUT.LE` when the bits do not fit in the register: the oldest 32 bits leave as four bytes, written at
`INDEX` all four or not at all, `INDEX` and `FILL` move in both cases, and the new bits stand below what is left
(`41_put_be.md` R86, R87; `42_put_le.md` R93). Inside the envelope. -/
def Obligations.PutDrainsFourBytes : Prop :=
  ∀ (n : BitVec 8) (v : BitVec 32) (i : Instr) (s : State),
    (i = .putBe n v ∨ i = .putLe n v) → n.toNat ≤ 32 → s.fill.toNat ≤ 64 → LeftJustified s →
    64 < s.fill.toNat + n.toNat → s.index.toNat + 4 < 4294967296 →
    ∃ t, exec i s = .next t ∧
      t.fill.toNat = s.fill.toNat + n.toNat - 32 ∧
      t.index.toNat = s.index.toNat + 4 ∧
      (∀ j, j < 64 → t.cache.getMsbD j =
        if j < s.fill.toNat - 32 then s.cache.getMsbD (j + 32)
        else ((insertedBits i)[j - (s.fill.toNat - 32)]?).getD false) ∧
      (if s.index.toNat + 4 ≤ s.len.toNat then
        (∀ a, Memory.read t.dst a =
          if s.index.toNat ≤ a ∧ a < s.index.toNat + 4 then some (s.cache.extractLsb' (56 - 8 * (a - s.index.toNat)) 8)
          else Memory.read s.dst a) ∧
        t.dstw = s.dstw ++
          [(s.index.toNat, s.cache.extractLsb' 56 8), (s.index.toNat + 1, s.cache.extractLsb' 48 8),
           (s.index.toNat + 2, s.cache.extractLsb' 40 8), (s.index.toNat + 3, s.cache.extractLsb' 32 8)]
      else t.dst = s.dst ∧ t.dstw = s.dstw) ∧
      t = { s with cache := t.cache, fill := t.fill, index := t.index, dst := t.dst, dstw := t.dstw,
                   cmd := s.cmd.tail, rsp := s.rsp ++ [0#74] }

/-- THE MODEL'S CHOICE (log 1; `93_implementation_defined.md` U3 states no result): a `PUT` whose drain takes `INDEX` past
its 32 bits still completes; the four bytes are discarded, `INDEX` holds a free value, and the rest is as in the envelope:
`FILL`, `CACHE` as in `PutDrainsFourBytes` where it was left-justified, and the frame. -/
def Obligations.PutBeyondEnvelopeCompletes : Prop :=
  ∀ (n : BitVec 8) (v : BitVec 32) (i : Instr) (s : State),
    (i = .putBe n v ∨ i = .putLe n v) → n.toNat ≤ 32 → s.fill.toNat ≤ 64 →
    64 < s.fill.toNat + n.toNat → 4294967296 ≤ s.index.toNat + 4 →
    ∃ t, exec i s = .next t ∧
      t.fill.toNat = s.fill.toNat + n.toNat - 32 ∧
      t.index = Config.indexBeyondEnvelope s.freeCount ∧
      (LeftJustified s → ∀ j, j < 64 → t.cache.getMsbD j =
        if j < s.fill.toNat - 32 then s.cache.getMsbD (j + 32)
        else ((insertedBits i)[j - (s.fill.toNat - 32)]?).getD false) ∧
      t = { s with cache := t.cache, fill := t.fill, index := t.index, freeCount := s.freeCount + 1,
                   cmd := s.cmd.tail, rsp := s.rsp ++ [0#74] }

/-- R93: `PUT.LE n, v` is `PUT.BE n, le32(n, v)`: the drain test, the drain, the placement and the update of `FILL` are
those of the big-endian insertion. -/
def Obligations.PutLeIsPutBeRearranged : Prop :=
  ∀ (n : BitVec 8) (v : BitVec 32) (s : State), n.toNat ≤ 32 →
    exec (.putLe n v) s = exec (.putBe n (le32 n.toNat v)) s ∧
    insertLe n.toNat v s = insertBe n.toNat (le32 n.toNat v) s

/-- R92: `le32(n, v)` is an `n`-bit number, its bits are the whole low bytes of the value, least significant first, and then
the leftover high bits; the form by byte swap gives the same number, whether the mask is applied before the swap or not at
all; bits of `v` above `n − 1` make no difference; `le32(0, v)` is 0. -/
def Obligations.LittleEndianFormsAgree : Prop :=
  ∀ (n : Nat) (v : BitVec 32), n ≤ 32 →
    (le32 n v).toNat < 2 ^ n ∧
    beBits n (le32 n v) = leBits n v ∧
    le32 n v = le32BySwap n v ∧
    shr32 (bswap32 v) (32 - 8 * (n / 8)) = le32SwappedHigh n v ∧
    (n % 8 ≠ 0 → shr32 (bswap32 v) (24 - 8 * (n / 8)) &&& mask 32 (n % 8) = le32SwappedLow n v) ∧
    le32 n (v &&& mask 32 n) = le32 n v ∧
    le32 0 v = 0#32

/-- For counts of at most 8 the selector makes no difference (`42_put_le.md` R95, second and third rows). -/
def Obligations.PutLeOfAtMostOneByte : Prop :=
  ∀ (n : BitVec 8) (v : BitVec 32) (s : State), n.toNat ≤ 8 →
    exec (.putLe n v) s = exec (.putBe n v) s

/-- `PUT.LE n, v` leaves the registers and the destination as `PUT.LE 8k, v` and then `PUT.LE r` of the leftover bits do,
with `n = 8k + r` (`42_put_le.md` R95). -/
def Obligations.PutLeComposes : Prop :=
  ∀ (n a r : BitVec 8) (v : BitVec 32) (s : State), n.toNat ≤ 32 → s.fill.toNat ≤ 64 →
    a.toNat = 8 * (n.toNat / 8) → r.toNat = n.toNat % 8 →
    ∃ t t1 t2, exec (.putLe n v) s = .next t ∧ exec (.putLe a v) s = .next t1 ∧
      exec (.putLe r ((v &&& mask 32 n.toNat) >>> a.toNat)) t1 = .next t2 ∧ SameBlock t t2

/-- R99: a `PUT64` command of more than 32 bits leaves the same registers and the same destination writes as the two `PUT`
commands it is made of. The states differ in nothing but the commands and responses: it answers once where they answer twice. -/
def Obligations.Put64IsTwoInsertions : Prop :=
  ∀ (n m : BitVec 8) (v : BitVec 64) (s : State), 32 < n.toNat → n.toNat ≤ 64 → m.toNat = n.toNat - 32 →
    (∃ t t1 t2, exec (.put64Be n v) s = .next t ∧
      exec (.putBe m (v.extractLsb' 32 32)) s = .next t1 ∧ exec (.putBe 32#8 (v.extractLsb' 0 32)) t1 = .next t2 ∧
      t2 = { t with cmd := t2.cmd, rsp := t2.rsp } ∧
      t.rsp = s.rsp ++ [0#74] ∧ t2.rsp = s.rsp ++ [0#74, 0#74]) ∧
    (∃ t t1 t2, exec (.put64Le n v) s = .next t ∧
      exec (.putLe 32#8 (v.extractLsb' 0 32)) s = .next t1 ∧ exec (.putLe m (v.extractLsb' 32 32)) t1 = .next t2 ∧
      t2 = { t with cmd := t2.cmd, rsp := t2.rsp } ∧
      t.rsp = s.rsp ++ [0#74] ∧ t2.rsp = s.rsp ++ [0#74, 0#74])

/-- A `PUT64` command of at most 32 bits is the `PUT` command of the value's low half (`43_put64.md` R97, R98). -/
def Obligations.Put64OfAtMost32IsPut : Prop :=
  ∀ (n : BitVec 8) (v : BitVec 64) (s : State), n.toNat ≤ 32 →
    exec (.put64Be n v) s = exec (.putBe n (v.extractLsb' 0 32)) s ∧
    exec (.put64Le n v) s = exec (.putLe n (v.extractLsb' 0 32)) s

/-- An insertion of no bits changes no register and writes nothing (`41_put_be.md` R89, `30_encoding.md` R69). -/
def Obligations.InsertionOfNoBits : Prop :=
  ∀ (v : BitVec 32) (x : BitVec 64) (i : Instr) (s : State), s.fill.toNat ≤ 64 →
    (i = .putBe 0#8 v ∨ i = .putLe 0#8 v ∨ i = .put64Be 0#8 x ∨ i = .put64Le 0#8 x) →
    exec i s = .next { s with cmd := s.cmd.tail, rsp := s.rsp ++ [0#74] }

/-- Bits of a value above its count are ignored: two values that agree on the low `n` bits are the same insertion
(`30_encoding.md` R63, `41_put_be.md` R89, `42_put_le.md` R95, `43_put64.md` R97, R98). -/
def Obligations.HighValueBitsIgnored : Prop :=
  (∀ (n : BitVec 8) (v v' : BitVec 32) (s : State), (∀ j, j < n.toNat → v.getLsbD j = v'.getLsbD j) →
    exec (.putBe n v) s = exec (.putBe n v') s ∧ exec (.putLe n v) s = exec (.putLe n v') s) ∧
  (∀ (n : BitVec 8) (v v' : BitVec 64) (s : State), (∀ j, j < n.toNat → v.getLsbD j = v'.getLsbD j) →
    exec (.put64Be n v) s = exec (.put64Be n v') s ∧ exec (.put64Le n v) s = exec (.put64Le n v') s)

/-- A discarded drain means a true overflow (`41_put_be.md` R91): the stream with the new bits needs more bytes than
there are, and afterwards `INDEX > LEN` and a `FLUSH` answers OVERFLOW. -/
def Obligations.DiscardedDrainIsTrueOverflow : Prop :=
  ∀ (n : BitVec 8) (v : BitVec 32) (i : Instr) (s : State),
    (i = .putBe n v ∨ i = .putLe n v) → n.toNat ≤ 32 → s.fill.toNat ≤ 64 →
    64 < s.fill.toNat + n.toNat → s.len.toNat < s.index.toNat + 4 → s.index.toNat + 4 < 4294967296 →
    ∃ t u, exec i s = .next t ∧ t.dst = s.dst ∧ t.len = s.len ∧
      8 * s.len.toNat < position s + n.toNat ∧ position t = position s + n.toNat ∧
      t.len.toNat < t.index.toNat ∧
      exec .flush t = .next u ∧ u.rsp = t.rsp ++ [0x1000000000000000000#74]

/-! ## Flush -/

/-- R104: `FLUSH` as a function of the state before it, with its frame. `B` is the position; the loop moves whole bytes to
the destination until `INDEX = LEN` or fewer than 8 bits are left, and never changes the position. The write events are one
per byte at ascending offsets, and no others (`20_memory.md` R33, R45). -/
def Obligations.FlushStatusTable : Prop :=
  ∀ s : State, s.fill.toNat ≤ 64 → LeftJustified s →
    ∃ t st, exec .flush s = .next t ∧
      t.index.toNat = min (max s.len.toNat s.index.toNat) (s.index.toNat + s.fill.toNat / 8) ∧
      t.fill.toNat = s.fill.toNat - 8 * (t.index.toNat - s.index.toNat) ∧
      t.cache = s.cache <<< (8 * (t.index.toNat - s.index.toNat)) ∧
      position t = position s ∧
      (∀ a, Memory.read t.dst a =
        if s.index.toNat ≤ a ∧ a < t.index.toNat then some (s.cache.extractLsb' (56 - 8 * (a - s.index.toNat)) 8)
        else Memory.read s.dst a) ∧
      t.dstw = s.dstw ++ eventsAt s.index.toNat (oldestBytes (t.index.toNat - s.index.toNat) s.cache) ∧
      t.rsp = s.rsp ++ [responseWord st 0#36 0#36] ∧
      (s.index.toNat ≤ s.len.toNat → ceil8 (position s) ≤ s.len.toNat → position s % 8 = 0 →
        st = .ok ∧ t.index.toNat = position s / 8 ∧ t.fill = 0#7 ∧ t.cache = 0#64) ∧
      (s.index.toNat ≤ s.len.toNat → ceil8 (position s) ≤ s.len.toNat → position s % 8 ≠ 0 →
        st = .underflow ∧ t.index.toNat = position s / 8 ∧ t.fill.toNat = position s % 8) ∧
      (s.index.toNat ≤ s.len.toNat → s.len.toNat < ceil8 (position s) →
        st = .overflow ∧ t.index = s.len ∧ t.fill.toNat = position s - 8 * s.len.toNat ∧
        1 ≤ t.fill.toNat ∧ t.fill.toNat ≤ 64) ∧
      (s.len.toNat < s.index.toNat →
        st = .overflow ∧ t.index = s.index ∧ t.fill = s.fill ∧ t.cache = s.cache ∧ t.dst = s.dst ∧ t.dstw = s.dstw) ∧
      t = { s with cache := t.cache, fill := t.fill, index := t.index, dst := t.dst, dstw := t.dstw,
                   cmd := s.cmd.tail, rsp := t.rsp }

/-- R102: a second `FLUSH` directly after a first changes no register, writes nothing and answers the same status, because
after the first fewer than 8 bits are pending or `INDEX ≥ LEN`. For all three statuses. -/
def Obligations.FlushIsIdempotent : Prop :=
  ∀ s : State, ∃ t u r, exec .flush s = .next t ∧ t.rsp = s.rsp ++ [r] ∧ exec .flush t = .next u ∧
    u = { t with cmd := t.cmd.tail, rsp := t.rsp ++ [r] } ∧ (t.fill.toNat < 8 ∨ t.len.toNat ≤ t.index.toNat)

/-- Padding and flushing again after an Underflow (`60_exceptions.md` R125, R126, R119): inserting `8 − FILL` bits, of any value
and by either selector, makes the next `FLUSH` answer OK. -/
def Obligations.PaddingRecoversFromUnderflow : Prop :=
  ∀ (s t : State) (n : BitVec 8) (v : BitVec 32) (i : Instr), s.fill.toNat ≤ 64 →
    exec .flush s = .next t → t.rsp = s.rsp ++ [0x2000000000000000000#74] →
    n.toNat = 8 - t.fill.toNat → (i = .putBe n v ∨ i = .putLe n v) →
    ∃ u x, exec i t = .next u ∧ exec .flush u = .next x ∧ x.rsp = u.rsp ++ [0#74] ∧ x.fill = 0#7

/-! ## Bulk byte write -/

/-- `WRB` after a flush that succeeds (`45_write_bytes.md` R105, R106): the pending bytes and then the payload bytes that fit are
written, one event per byte at ascending offsets (`20_memory.md` R33, R45), `INDEX` advances by `L` and not by the number
copied, and the response gives that number. Inside the envelope. -/
def Obligations.WrbCopiesPayload : Prop :=
  ∀ (l : BitVec 32) (s : State), s.fill.toNat ≤ 64 → LeftJustified s →
    l.toNat ≤ s.pay.length → FlushSucceeds s → position s / 8 + l.toNat < 4294967296 →
    ∃ t, exec (.wrb l) s = .next t ∧
      t.cache = 0#64 ∧ t.fill = 0#7 ∧ t.index.toNat = position s / 8 + l.toNat ∧
      t.pay = s.pay.drop l.toNat ∧
      (∀ a, Memory.read t.dst a =
        if s.index.toNat ≤ a ∧ a < position s / 8 then some (s.cache.extractLsb' (56 - 8 * (a - s.index.toNat)) 8)
        else if position s / 8 ≤ a ∧ a < position s / 8 + min l.toNat (s.len.toNat - position s / 8) then
          s.pay[a - position s / 8]?
        else Memory.read s.dst a) ∧
      t.dstw = s.dstw ++ eventsAt s.index.toNat (oldestBytes (position s / 8 - s.index.toNat) s.cache) ++
        eventsAt (position s / 8) (s.pay.take (min l.toNat (s.len.toNat - position s / 8))) ∧
      (∃ r, t.rsp = s.rsp ++ [r] ∧
        rspStatus r = (if position s / 8 + l.toNat ≤ s.len.toNat then 0#2 else 1#2) ∧
        (rspV0 r).toNat = min l.toNat (s.len.toNat - position s / 8) ∧ rspV1 r = 0#36) ∧
      t = { s with cache := t.cache, fill := t.fill, index := t.index, dst := t.dst, dstw := t.dstw,
                   pay := t.pay, cmd := s.cmd.tail, rsp := t.rsp }

/-- THE MODEL'S CHOICE (log 1; `93_implementation_defined.md` U3 states no result): a `WRB` that takes `INDEX` past its 32 bits
still completes: it writes the pending bytes and the payload bytes that fit, as `WrbCopiesPayload` does, answers OVERFLOW with
their number, consumes the payload, and `INDEX` holds a free value. -/
def Obligations.WrbBeyondEnvelopeCompletes : Prop :=
  ∀ (l : BitVec 32) (s : State), s.fill.toNat ≤ 64 →
    l.toNat ≤ s.pay.length → FlushSucceeds s → 4294967296 ≤ position s / 8 + l.toNat →
    ∃ t r, exec (.wrb l) s = .next t ∧
      t.index = Config.indexBeyondEnvelope s.freeCount ∧
      t.cache = s.cache <<< s.fill.toNat ∧ (LeftJustified s → t.cache = 0#64) ∧
      (∀ a, Memory.read t.dst a =
        if s.index.toNat ≤ a ∧ a < position s / 8 then some (s.cache.extractLsb' (56 - 8 * (a - s.index.toNat)) 8)
        else if position s / 8 ≤ a ∧ a < s.len.toNat then s.pay[a - position s / 8]?
        else Memory.read s.dst a) ∧
      t.dstw = s.dstw ++ eventsAt s.index.toNat (oldestBytes (position s / 8 - s.index.toNat) s.cache) ++
        eventsAt (position s / 8) (s.pay.take (s.len.toNat - position s / 8)) ∧
      rspStatus r = 1#2 ∧ (rspV0 r).toNat = s.len.toNat - position s / 8 ∧ rspV1 r = 0#36 ∧
      t = { s with cache := t.cache, fill := 0#7, index := t.index, dst := t.dst, dstw := t.dstw,
                   freeCount := s.freeCount + 1, pay := s.pay.drop l.toNat, cmd := s.cmd.tail, rsp := s.rsp ++ [r] }

/-- `WRB` whose flush fails is that `FLUSH` with the payload consumed and dropped: nothing is copied and `INDEX` is not
advanced by `L` (`45_write_bytes.md` R105, R106; `30_encoding.md` R65). -/
def Obligations.WrbPropagatesFlushError : Prop :=
  ∀ (l : BitVec 32) (s : State), l.toNat ≤ s.pay.length → ¬ FlushSucceeds s →
    exec (.wrb l) s = exec .flush { s with pay := s.pay.drop l.toNat } ∧
    ∃ t r, exec (.wrb l) s = .next t ∧ t.rsp = s.rsp ++ [r] ∧ rspV0 r = 0#36 ∧
      (rspStatus r = 1#2 ∨ rspStatus r = 2#2)

/-- A `WRB` with fewer than `L` bytes on `PAY` waits: it does not complete and nothing changes (`30_encoding.md` R65; the form
of the wait is log 4). -/
def Obligations.WrbWaitsForItsPayload : Prop :=
  ∀ (l : BitVec 32) (s : State), s.pay.length < l.toNat → exec (.wrb l) s = .next s

/-- A `WRB` of no bytes is exactly a `FLUSH` (`45_write_bytes.md` R106, first row). -/
def Obligations.WrbOfNoBytesIsFlush : Prop :=
  ∀ s : State, exec (.wrb 0#32) s = exec .flush s

/-! ## Queries -/

/-- R113 with the values of R109 to R111: the three queries answer OK with the numbers, which their 36 bits always hold, and
change no register and no destination byte, in any state. -/
def Obligations.QueriesOnlyAnswer : Prop :=
  ∀ s : State,
    (∃ r, exec .pos s = .next { s with cmd := s.cmd.tail, rsp := s.rsp ++ [r] } ∧ rspStatus r = 0#2 ∧
      (rspV0 r).toNat = s.index.toNat * 8 + s.fill.toNat ∧ rspV1 r = 0#36) ∧
    (∃ r, exec .rem s = .next { s with cmd := s.cmd.tail, rsp := s.rsp ++ [r] } ∧ rspStatus r = 0#2 ∧
      (rspV0 r).toNat = s.len.toNat * 8 - (s.index.toNat * 8 + s.fill.toNat) ∧ rspV1 r = 0#36) ∧
    (∃ r, exec .tail s = .next { s with cmd := s.cmd.tail, rsp := s.rsp ++ [r] } ∧ rspStatus r = 0#2 ∧
      (rspV0 r).toNat = min (s.index.toNat + s.fill.toNat / 8) s.len.toNat ∧
      (rspV1 r).toNat = s.len.toNat - min (s.index.toNat + s.fill.toNat / 8) s.len.toNat)

/-! ## Rules of the whole machine -/

/-- The invariant holds after power-on reset (`10_state.md` R11, R12, R22). -/
def Obligations.ResetMeetsInvariant : Prop := MachineInv State.reset

/-- Every step keeps the invariant: `FILL` stays within 64, `CACHE` stays left-justified and the destination keeps its
canonical form (`10_state.md` R11, R12; `20_memory.md` R30). -/
def Obligations.StepKeepsInvariant : Prop :=
  ∀ s t : State, MachineInv s → step s = .next t → MachineInv t

/-- What the host does between commands keeps the invariant: presenting a command with its payload, and power-on reset
(`30_encoding.md` R60, `70_reset_and_hazards.md` R136). -/
def Obligations.HostKeepsInvariant : Prop :=
  ∀ (s : State) (w : CommandWord) (p : List Byte), MachineInv s → MachineInv (State.present w p s) ∧ MachineInv (powerOn s)

/-- R40: the block cannot write outside `[0, LEN)`, whether or not the stream fits. A step's effect on the destination is
exactly the write events it records, in order (`20_memory.md` R45), and every event lies inside. -/
def Obligations.WritesAreEventsInBounds : Prop :=
  ∀ s t : State, step s = .next t →
    ∃ ev, t.dstw = s.dstw ++ ev ∧ t.dst = Memory.applyEvents s.dst ev ∧ ∀ c ∈ ev, c.1 < s.len.toNat

/-- R32: the block never reads the destination. With any other contents there, every command gives the same registers,
channels, events and response, and overwrites the same whole bytes. -/
def Obligations.DestinationIsNeverRead : Prop :=
  ∀ (i : Instr) (s : State) (m : Memory),
    ∃ t u ev, exec i s = .next t ∧ exec i { s with dst := m } = .next u ∧ { u with dst := t.dst } = t ∧
      t.dst = Memory.applyEvents s.dst ev ∧ u.dst = Memory.applyEvents m ev

/-- `INDEX` only increases, except that `RESET`, `INIT` and `INITH` set it to 0: a command adds 4 for each `DRAIN32`, 1 for
each `FLUSH` step, `L` for the copy of a `WRB`, and otherwise nothing (`10_state.md` R15). Inside the envelope. -/
def Obligations.IndexOnlyIncreases : Prop :=
  ∀ (s t : State) (i : Instr), s.fill.toNat ≤ 64 → InEnvelope i s → exec i s = .next t →
    if startsStream i then t.index = 0#32
    else s.index.toNat ≤ t.index.toNat ∧ t.index.toNat = s.index.toNat + indexAdvance i s

/-- Overflow persists (`60_exceptions.md` R126): after it no command but `RESET`, `INIT` and `INITH` ends it, and every `FLUSH`
and every `WRB` that is answered reports OVERFLOW again, copying nothing. Inside the envelope. -/
def Obligations.OverflowPersists : Prop :=
  ∀ (s t : State) (i : Instr), s.fill.toNat ≤ 64 → Overflowed s → InEnvelope i s → exec i s = .next t →
    (startsStream i = false → Overflowed t) ∧
    (i = .flush → t.rsp = s.rsp ++ [0x1000000000000000000#74]) ∧
    (∀ l : BitVec 32, i = .wrb l → l.toNat ≤ s.pay.length → t.rsp = s.rsp ++ [0x1000000000000000000#74])

/-- The block holds the stream its commands define (`41_put_be.md` R90, `44_flush.md` R103, `10_state.md` R23): if the state holds
the stream `S`, then after a step that runs a command inside the envelope it holds the stream with that command's bits
appended, or the empty stream after `INIT`, `INITH` and `RESET`. -/
def Obligations.StepCarriesTheStream : Prop :=
  ∀ (S : List Bool) (s t : State) (i : Instr), MachineInv s → StreamHolds S s →
    nextInstr s = some i → InEnvelope i s → step s = .next t → StreamHolds (streamAfter i s S) t

/-- What an OK flush guarantees (`44_flush.md` R103 (a)): the stream is a whole number of bytes, it fits, and every one of
its bytes stands in the destination at its place, most significant bit first. -/
def Obligations.OkFlushDeliversTheStream : Prop :=
  ∀ (S : List Bool) (s t : State), MachineInv s → StreamHolds S s → exec .flush s = .next t → t.rsp = s.rsp ++ [0#74] →
    S.length = 8 * t.index.toNat ∧ t.index.toNat ≤ t.len.toNat ∧
    ∀ j, j < t.index.toNat → ∃ b, Memory.read t.dst j = some b ∧ byteBits b = (S.drop (8 * j)).take 8
end

