-- ==== Sys2Proof/Laws/Decode.lean ====
section
/-! SUPPORT. The fields of an assembled command word, and what each decoding format accepts, said once. -/

namespace Sys2Proof

/-- Each field of an assembled word is the field it was assembled from (`30_encoding.md` R61). -/
theorem commandWord_fields (o : BitVec 4) (e : BitVec 1) (c : BitVec 8) (d : BitVec 64) :
    opcField (commandWord o e c d) = o ∧ eField (commandWord o e c d) = e ∧ zField (commandWord o e c d) = 0#3 ∧
    cntField (commandWord o e c d) = c ∧ dataField (commandWord o e c d) = d ∧
    datahField (commandWord o e c d) = d.extractLsb' 32 32 ∧ datalField (commandWord o e c d) = d.extractLsb' 0 32 := by
  refine ⟨?_, ?_, ?_, ?_, ?_, ?_, ?_⟩ <;>
  · apply BitVec.eq_of_getLsbD_eq
    intro i hi
    simp only [opcField, eField, zField, cntField, dataField, datahField, datalField, commandWord,
      BitVec.getLsbD_extractLsb', BitVec.getLsbD_append, hi, decide_true, Bool.true_and]
    repeat' split
    all_goals first | omega | (congr 1; omega) | simp

/-- The two halves of a 64-bit operand. -/
theorem halves_of_append (h l : BitVec 32) :
    (h ++ l : BitVec 64).extractLsb' 32 32 = h ∧ (h ++ l : BitVec 64).extractLsb' 0 32 = l := by
  constructor <;>
  · apply BitVec.eq_of_getLsbD_eq
    intro i hi
    rw [BitVec.getLsbD_extractLsb', BitVec.getLsbD_append]
    split <;> simp_all

/-- A word is its five fields put together. -/
theorem word_eq_fields (w : CommandWord) :
    w = opcField w ++ eField w ++ zField w ++ cntField w ++ dataField w := by
  apply BitVec.eq_of_getLsbD_eq
  intro i hi
  simp only [opcField, eField, zField, cntField, dataField, BitVec.getLsbD_extractLsb', BitVec.getLsbD_append]
  repeat' split
  all_goals (rw [decide_eq_true (by omega), Bool.true_and]; congr 1; try omega)

/-- `DATA` is `DATAH` above `DATAL`. -/
theorem dataField_eq_halves (w : CommandWord) : dataField w = datahField w ++ datalField w := by
  apply BitVec.eq_of_getLsbD_eq
  intro i hi
  rw [BitVec.getLsbD_append]
  simp only [datahField, datalField, dataField, BitVec.getLsbD_extractLsb']
  split <;> (rw [decide_eq_true (by omega), Bool.true_and, decide_eq_true (by omega), Bool.true_and]; try congr 1; try omega)

theorem eField_cases (w : CommandWord) : eField w = 0#1 ∨ eField w = 1#1 := by
  generalize eField w = e
  revert e
  decide

/-- What format `Z` accepts. -/
theorem decodeZ_ok {w : CommandWord} {i j : Instr} :
    decodeZ w j = .ok i ↔ eField w = 0#1 ∧ cntField w = 0#8 ∧ dataField w = 0#64 ∧ j = i := by
  unfold decodeZ
  split_ifs <;> simp_all

/-- What format `L` accepts. -/
theorem decodeL_ok {w : CommandWord} {i : Instr} {f : BitVec 32 → Instr} :
    decodeL w f = .ok i ↔ eField w = 0#1 ∧ cntField w = 0#8 ∧ datahField w = 0#32 ∧ f (datalField w) = i := by
  unfold decodeL
  split_ifs <;> simp_all

/-- What format `LH` accepts. -/
theorem decodeLH_ok {w : CommandWord} {i : Instr} {f : BitVec 32 → BitVec 32 → Instr} :
    decodeLH w f = .ok i ↔ eField w = 0#1 ∧ cntField w = 0#8 ∧ f (datalField w) (datahField w) = i := by
  unfold decodeLH
  split_ifs <;> simp_all

/-- What format `P32` accepts. -/
theorem decodeP32_ok {w : CommandWord} {i : Instr} :
    decodeP32 w = .ok i ↔ (cntField w).toNat ≤ 32 ∧ datahField w = 0#32 ∧
      ((eField w = 0#1 ∧ Instr.putBe (cntField w) (datalField w) = i) ∨
       (eField w = 1#1 ∧ Instr.putLe (cntField w) (datalField w) = i)) := by
  have he := eField_cases w
  unfold decodeP32
  split_ifs with h1 h2 h3 <;> simp_all

/-- What format `P64` accepts. -/
theorem decodeP64_ok {w : CommandWord} {i : Instr} :
    decodeP64 w = .ok i ↔ (cntField w).toNat ≤ 64 ∧
      ((eField w = 0#1 ∧ Instr.put64Be (cntField w) (dataField w) = i) ∨
       (eField w = 1#1 ∧ Instr.put64Le (cntField w) (dataField w) = i)) := by
  have he := eField_cases w
  unfold decodeP64
  split_ifs with h1 h2 <;> simp_all

/-- What the decoder accepts: one of the ten opcodes with `Z = 0`, and the word fits the opcode's format. -/
theorem decode_ok {w : CommandWord} {i : Instr} (h : decode w = .ok i) :
    zField w = 0#3 ∧
    ((opcField w = 0x1#4 ∧ decodeL w .init = .ok i) ∨ (opcField w = 0x2#4 ∧ decodeLH w .inith = .ok i) ∨
     (opcField w = 0x3#4 ∧ decodeZ w .reset = .ok i) ∨ (opcField w = 0x4#4 ∧ decodeP32 w = .ok i) ∨
     (opcField w = 0x5#4 ∧ decodeP64 w = .ok i) ∨ (opcField w = 0x6#4 ∧ decodeZ w .flush = .ok i) ∨
     (opcField w = 0x7#4 ∧ decodeL w .wrb = .ok i) ∨ (opcField w = 0x8#4 ∧ decodeZ w .pos = .ok i) ∨
     (opcField w = 0x9#4 ∧ decodeZ w .rem = .ok i) ∨ (opcField w = 0xA#4 ∧ decodeZ w .tail = .ok i)) := by
  unfold decode at h
  simp only [ite_eq_iff, ne_eq, not_not, reduceCtorEq, and_false, false_or, or_false] at h
  refine ⟨h.1, ?_⟩
  rcases h.2 with h | ⟨-, h | ⟨-, h | ⟨-, h | ⟨-, h | ⟨-, h | ⟨-, h | ⟨-, h | ⟨-, h | ⟨-, h⟩⟩⟩⟩⟩⟩⟩⟩⟩ <;> simp [h]

/-! ### The rows of the opcode map -/

/-- Two concatenations of the same widths are equal exactly when their parts are. -/
theorem append_inj {n m : Nat} {a a' : BitVec n} {b b' : BitVec m} : a ++ b = a' ++ b' ↔ a = a' ∧ b = b' := by
  constructor
  · intro h
    constructor
    · apply BitVec.eq_of_getLsbD_eq
      intro i hi
      have := congrArg (fun x => x.getLsbD (i + m)) h
      simpa [BitVec.getLsbD_append] using this
    · apply BitVec.eq_of_getLsbD_eq
      intro i hi
      have := congrArg (fun x => x.getLsbD i) h
      simpa [BitVec.getLsbD_append, hi] using this
  · rintro ⟨rfl, rfl⟩; rfl
theorem and_allOnes_of_eq {w} (x : BitVec w) (m : BitVec w) (h : m = BitVec.allOnes w) : x &&& m = x := by subst h; simp
theorem fields_inj (o o' : BitVec 4) (e e' : BitVec 1) (z z' : BitVec 3) (c c' : BitVec 8) (d d' : BitVec 64) :
    (o ++ e ++ z ++ c ++ d : BitVec 80) = o' ++ e' ++ z' ++ c' ++ d' ↔ o = o' ∧ e = e' ∧ z = z' ∧ c = c' ∧ d = d' := by
  rw [append_inj, append_inj, append_inj, append_inj]; tauto
theorem fields_and (o o' : BitVec 4) (e e' : BitVec 1) (z z' : BitVec 3) (c c' : BitVec 8) (d d' : BitVec 64) :
    (o ++ e ++ z ++ c ++ d : BitVec 80) &&& (o' ++ e' ++ z' ++ c' ++ d') = (o &&& o') ++ (e &&& e') ++ (z &&& z') ++ (c &&& c') ++ (d &&& d') := by
  rw [BitVec.and_append, BitVec.and_append, BitVec.and_append, BitVec.and_append]
/-- Which words select a row whose pattern and mask are written by their fields. -/
theorem selects_iff (w : CommandWord) (op : Op) (k : Nat)
   (o : BitVec 4) (e : BitVec 1) (c : BitVec 8) (d : BitVec 64)
   (mo : BitVec 4) (me : BitVec 1) (mz : BitVec 3) (mc : BitVec 8) (md : BitVec 64) :
   OpcodeRow.selects ⟨op, o ++ e ++ 0#3 ++ c ++ d, mo ++ me ++ mz ++ mc ++ md, k⟩ w = true ↔
    opcField w &&& mo = o ∧ eField w &&& me = e ∧ zField w &&& mz = 0#3 ∧ cntField w &&& mc = c ∧ dataField w &&& md = d ∧ (cntField w).toNat ≤ k := by
  have h : (w &&& (mo ++ me ++ mz ++ mc ++ md : CommandWord) = o ++ e ++ 0#3 ++ c ++ d) ↔ 
     opcField w &&& mo = o ∧ eField w &&& me = e ∧ zField w &&& mz = 0#3 ∧ cntField w &&& mc = c ∧ dataField w &&& md = d := by
    conv_lhs => rw [word_eq_fields w]
    rw [fields_and, fields_inj]
  have h' : OpcodeRow.selects ⟨op, o ++ e ++ 0#3 ++ c ++ d, mo ++ me ++ mz ++ mc ++ md, k⟩ w = true ↔
     (w &&& (mo ++ me ++ mz ++ mc ++ md : CommandWord) = o ++ e ++ 0#3 ++ c ++ d) ∧ (cntField w).toNat ≤ k := by
    unfold OpcodeRow.selects
    generalize (w &&& (mo ++ me ++ mz ++ mc ++ md : CommandWord)) = x
    rw [Bool.and_eq_true, decide_eq_true_eq, decide_eq_true_eq]
  rw [h', h]; tauto
/-- The opcode map of `30_encoding.md` R62 with its patterns and masks written by their fields. -/
theorem opcodeRows_by_fields : opcodeRows = 
  [ ⟨.init, 1#4++0#1++0#3++0#8++0#64, 15#4++1#1++7#3++255#8++0xFFFFFFFF00000000#64, 255⟩,
    ⟨.inith, 2#4++0#1++0#3++0#8++0#64, 15#4++1#1++7#3++255#8++0#64, 255⟩,
    ⟨.reset, 3#4++0#1++0#3++0#8++0#64, 15#4++1#1++7#3++255#8++0xFFFFFFFFFFFFFFFF#64, 255⟩,
    ⟨.putBe, 4#4++0#1++0#3++0#8++0#64, 15#4++1#1++7#3++0#8++0xFFFFFFFF00000000#64, 32⟩,
    ⟨.putLe, 4#4++1#1++0#3++0#8++0#64, 15#4++1#1++7#3++0#8++0xFFFFFFFF00000000#64, 32⟩,
    ⟨.put64Be, 5#4++0#1++0#3++0#8++0#64, 15#4++1#1++7#3++0#8++0#64, 64⟩,
    ⟨.put64Le, 5#4++1#1++0#3++0#8++0#64, 15#4++1#1++7#3++0#8++0#64, 64⟩,
    ⟨.flush, 6#4++0#1++0#3++0#8++0#64, 15#4++1#1++7#3++255#8++0xFFFFFFFFFFFFFFFF#64, 255⟩,
    ⟨.wrb, 7#4++0#1++0#3++0#8++0#64, 15#4++1#1++7#3++255#8++0xFFFFFFFF00000000#64, 255⟩,
    ⟨.pos, 8#4++0#1++0#3++0#8++0#64, 15#4++1#1++7#3++255#8++0xFFFFFFFFFFFFFFFF#64, 255⟩,
    ⟨.rem, 9#4++0#1++0#3++0#8++0#64, 15#4++1#1++7#3++255#8++0xFFFFFFFFFFFFFFFF#64, 255⟩,
    ⟨.tail, 10#4++0#1++0#3++0#8++0#64, 15#4++1#1++7#3++255#8++0xFFFFFFFFFFFFFFFF#64, 255⟩ ] := by
  decide
theorem dataField_high_zero (w : CommandWord) : dataField w &&& 0xFFFFFFFF00000000#64 = 0#64 ↔ datahField w = 0#32 := by
  rw [dataField_eq_halves, show 0xFFFFFFFF00000000#64 = 0xFFFFFFFF#32 ++ 0#32 by rfl, BitVec.and_append, show 0#64 = 0#32 ++ 0#32 by rfl, append_inj]
  rw [and_allOnes_of_eq _ _ (by rfl)]; simp

end Sys2Proof
end

