-- ==== Sys2Proof/Laws/Memory.lean ====
section
/-! SUPPORT. The laws of the destination: reading after writing, and the canonical form. -/

namespace Sys2Proof.Machine

@[simp] theorem Memory.read_nil (a : Nat) : Memory.read [] a = none := rfl

theorem Memory.read_cons (c : Host.Cell) (m : Memory) (a : Nat) :
    Memory.read (c :: m) a = if c.1 = a then some c.2 else Memory.read m a := rfl

/-- A write is read back. -/
@[simp] theorem Memory.read_write_same (m : Memory) (off : Nat) (b : Byte) :
    Memory.read (Memory.write m off b) off = some b := by
  induction m with
  | nil => simp [Memory.write, Memory.read]
  | cons c m ih =>
    simp only [Memory.write]
    split
    · simp [Memory.read]
    · split
      · simp [Memory.read]
      · rename_i h1 h2
        rw [Memory.read_cons, if_neg (fun h => h2 h.symm), ih]

/-- A write leaves every other offset alone. -/
theorem Memory.read_write_other (m : Memory) (off a : Nat) (b : Byte) (h : a ≠ off) :
    Memory.read (Memory.write m off b) a = Memory.read m a := by
  induction m with
  | nil => simp [Memory.write, Memory.read, h.symm]
  | cons c m ih =>
    simp only [Memory.write]
    split
    · simp [Memory.read, h.symm]
    · split
      · rename_i h1 h2
        simp [Memory.read, h.symm, ← h2]
      · rw [Memory.read_cons, Memory.read_cons, ih]

/-- What a write can list: the offset written, and what was listed. -/
theorem Memory.mem_write {m : Memory} {off : Nat} {b : Byte} {c : Host.Cell}
    (h : c ∈ Memory.write m off b) : c = (off, b) ∨ c ∈ m := by
  induction m with
  | nil => simpa [Memory.write] using h
  | cons d m ih =>
    simp only [Memory.write] at h
    split at h
    · simpa using h
    · split at h
      · rcases List.mem_cons.1 h with h | h
        · exact .inl h
        · exact .inr (List.mem_cons_of_mem _ h)
      · rcases List.mem_cons.1 h with h | h
        · exact .inr (h ▸ List.mem_cons_self)
        · exact (ih h).imp id (List.mem_cons_of_mem _)

/-- A write keeps the canonical form. -/
theorem Memory.wf_write {m : Memory} (off : Nat) (b : Byte) (h : Memory.wf m) :
    Memory.wf (Memory.write m off b) := by
  induction m with
  | nil => simp [Memory.wf, Memory.write]
  | cons c m ih =>
    have hc := List.pairwise_cons.1 h
    simp only [Memory.write]
    split
    · rename_i h1
      refine List.pairwise_cons.2 ⟨fun d hd => ?_, h⟩
      rcases List.mem_cons.1 hd with rfl | hd
      · exact h1
      · exact lt_trans h1 (hc.1 d hd)
    · split
      · rename_i h1 h2
        exact List.pairwise_cons.2 ⟨fun d hd => h2 ▸ hc.1 d hd, hc.2⟩
      · rename_i h1 h2
        refine List.pairwise_cons.2 ⟨fun d hd => ?_, ih hc.2⟩
        rcases Memory.mem_write hd with rfl | hd
        · change c.1 < off
          omega
        · exact hc.1 d hd

/-- The canonical form makes equal readings equal data: a listed byte is what its offset reads as. -/
theorem Memory.read_of_mem {m : Memory} (h : Memory.wf m) {c : Host.Cell} (hc : c ∈ m) :
    Memory.read m c.1 = some c.2 := by
  induction m with
  | nil => simp at hc
  | cons d m ih =>
    have hd := List.pairwise_cons.1 h
    rcases List.mem_cons.1 hc with rfl | hc
    · simp [Memory.read]
    · have := hd.1 c hc
      rw [Memory.read_cons, if_neg (by omega), ih hd.2 hc]

@[simp] theorem Memory.applyEvents_nil (m : Memory) : Memory.applyEvents m [] = m := rfl

@[simp] theorem Memory.applyEvents_cons (m : Memory) (c : Host.Cell) (ev : List Host.Cell) :
    Memory.applyEvents m (c :: ev) = Memory.applyEvents (Memory.write m c.1 c.2) ev := rfl

theorem Memory.applyEvents_append (m : Memory) (ev ev' : List Host.Cell) :
    Memory.applyEvents m (ev ++ ev') = Memory.applyEvents (Memory.applyEvents m ev) ev' := by
  simp [Memory.applyEvents, List.foldl_append]

/-- Any sequence of events keeps the canonical form. -/
theorem Memory.wf_applyEvents {m : Memory} (ev : List Host.Cell) (h : Memory.wf m) :
    Memory.wf (Memory.applyEvents m ev) := by
  induction ev generalizing m with
  | nil => exact h
  | cons c ev ih => exact ih (Memory.wf_write c.1 c.2 h)

/-- A sequence of events lists only offsets it names or that were listed. -/
theorem Memory.mem_applyEvents {m : Memory} {ev : List Host.Cell} {c : Host.Cell}
    (h : c ∈ Memory.applyEvents m ev) : c ∈ ev ∨ c ∈ m := by
  induction ev generalizing m with
  | nil => exact .inr h
  | cons d ev ih =>
    rcases ih h with h | h
    · exact .inl (List.mem_cons_of_mem _ h)
    · exact (Memory.mem_write h).imp (fun h => by simp [h]) id

/-- An offset that no event names reads as before. -/
theorem Memory.read_applyEvents_other {m : Memory} {ev : List Host.Cell} {a : Nat}
    (h : ∀ c ∈ ev, c.1 ≠ a) : Memory.read (Memory.applyEvents m ev) a = Memory.read m a := by
  induction ev generalizing m with
  | nil => rfl
  | cons d ev ih =>
    rw [Memory.applyEvents_cons, ih (fun c hc => h c (List.mem_cons_of_mem _ hc)),
      Memory.read_write_other _ _ _ _ (h d List.mem_cons_self).symm]

end Sys2Proof.Machine
end

