-- ==== Sys2Proof/Laws/State.lean ====
section
/-! SUPPORT. One lemma per field per named update of the state, each true by unfolding, so that no proof unfolds a
record update. -/

namespace Sys2Proof.Machine

@[simp] theorem writeByte_cache (off : Nat) (b : Byte) (s : State) : (writeByte off b s).cache = s.cache := rfl
@[simp] theorem writeByte_fill (off : Nat) (b : Byte) (s : State) : (writeByte off b s).fill = s.fill := rfl
@[simp] theorem writeByte_index (off : Nat) (b : Byte) (s : State) : (writeByte off b s).index = s.index := rfl
@[simp] theorem writeByte_len (off : Nat) (b : Byte) (s : State) : (writeByte off b s).len = s.len := rfl
@[simp] theorem writeByte_dst (off : Nat) (b : Byte) (s : State) : (writeByte off b s).dst = Memory.write s.dst off b := rfl
@[simp] theorem writeByte_cmd (off : Nat) (b : Byte) (s : State) : (writeByte off b s).cmd = s.cmd := rfl
@[simp] theorem writeByte_pay (off : Nat) (b : Byte) (s : State) : (writeByte off b s).pay = s.pay := rfl
@[simp] theorem writeByte_rsp (off : Nat) (b : Byte) (s : State) : (writeByte off b s).rsp = s.rsp := rfl
@[simp] theorem writeByte_dstw (off : Nat) (b : Byte) (s : State) : (writeByte off b s).dstw = s.dstw ++ [(off, b)] := rfl
@[simp] theorem writeByte_freeCount (off : Nat) (b : Byte) (s : State) : (writeByte off b s).freeCount = s.freeCount := rfl

@[simp] theorem shiftOut_cache (k : Nat) (s : State) : (shiftOut k s).cache = shl64 s.cache k := rfl
@[simp] theorem shiftOut_fill (k : Nat) (s : State) : (shiftOut k s).fill = BitVec.ofNat 7 (s.fill.toNat - k) := rfl
@[simp] theorem shiftOut_index (k : Nat) (s : State) : (shiftOut k s).index = s.index := rfl
@[simp] theorem shiftOut_len (k : Nat) (s : State) : (shiftOut k s).len = s.len := rfl
@[simp] theorem shiftOut_dst (k : Nat) (s : State) : (shiftOut k s).dst = s.dst := rfl
@[simp] theorem shiftOut_cmd (k : Nat) (s : State) : (shiftOut k s).cmd = s.cmd := rfl
@[simp] theorem shiftOut_pay (k : Nat) (s : State) : (shiftOut k s).pay = s.pay := rfl
@[simp] theorem shiftOut_rsp (k : Nat) (s : State) : (shiftOut k s).rsp = s.rsp := rfl
@[simp] theorem shiftOut_dstw (k : Nat) (s : State) : (shiftOut k s).dstw = s.dstw := rfl
@[simp] theorem shiftOut_freeCount (k : Nat) (s : State) : (shiftOut k s).freeCount = s.freeCount := rfl

@[simp] theorem appendBits_cache (n : Nat) (m : BitVec 32) (s : State) : (appendBits n m s).cache = s.cache ||| shl64 (zext64 m) (64 - s.fill.toNat - n) := rfl
@[simp] theorem appendBits_fill (n : Nat) (m : BitVec 32) (s : State) : (appendBits n m s).fill = BitVec.ofNat 7 (s.fill.toNat + n) := rfl
@[simp] theorem appendBits_index (n : Nat) (m : BitVec 32) (s : State) : (appendBits n m s).index = s.index := rfl
@[simp] theorem appendBits_len (n : Nat) (m : BitVec 32) (s : State) : (appendBits n m s).len = s.len := rfl
@[simp] theorem appendBits_dst (n : Nat) (m : BitVec 32) (s : State) : (appendBits n m s).dst = s.dst := rfl
@[simp] theorem appendBits_cmd (n : Nat) (m : BitVec 32) (s : State) : (appendBits n m s).cmd = s.cmd := rfl
@[simp] theorem appendBits_pay (n : Nat) (m : BitVec 32) (s : State) : (appendBits n m s).pay = s.pay := rfl
@[simp] theorem appendBits_rsp (n : Nat) (m : BitVec 32) (s : State) : (appendBits n m s).rsp = s.rsp := rfl
@[simp] theorem appendBits_dstw (n : Nat) (m : BitVec 32) (s : State) : (appendBits n m s).dstw = s.dstw := rfl
@[simp] theorem appendBits_freeCount (n : Nat) (m : BitVec 32) (s : State) : (appendBits n m s).freeCount = s.freeCount := rfl

@[simp] theorem respond_cache (st : Status) (v0 v1 : BitVec 36) (s : State) : (respond st v0 v1 s).cache = s.cache := rfl
@[simp] theorem respond_fill (st : Status) (v0 v1 : BitVec 36) (s : State) : (respond st v0 v1 s).fill = s.fill := rfl
@[simp] theorem respond_index (st : Status) (v0 v1 : BitVec 36) (s : State) : (respond st v0 v1 s).index = s.index := rfl
@[simp] theorem respond_len (st : Status) (v0 v1 : BitVec 36) (s : State) : (respond st v0 v1 s).len = s.len := rfl
@[simp] theorem respond_dst (st : Status) (v0 v1 : BitVec 36) (s : State) : (respond st v0 v1 s).dst = s.dst := rfl
@[simp] theorem respond_cmd (st : Status) (v0 v1 : BitVec 36) (s : State) : (respond st v0 v1 s).cmd = s.cmd.tail := rfl
@[simp] theorem respond_pay (st : Status) (v0 v1 : BitVec 36) (s : State) : (respond st v0 v1 s).pay = s.pay := rfl
@[simp] theorem respond_rsp (st : Status) (v0 v1 : BitVec 36) (s : State) : (respond st v0 v1 s).rsp = s.rsp ++ [responseWord st v0 v1] := rfl
@[simp] theorem respond_dstw (st : Status) (v0 v1 : BitVec 36) (s : State) : (respond st v0 v1 s).dstw = s.dstw := rfl
@[simp] theorem respond_freeCount (st : Status) (v0 v1 : BitVec 36) (s : State) : (respond st v0 v1 s).freeCount = s.freeCount := rfl

@[simp] theorem illegal_cache (s : State) : (illegal s).cache = s.cache := rfl
@[simp] theorem illegal_fill (s : State) : (illegal s).fill = s.fill := rfl
@[simp] theorem illegal_index (s : State) : (illegal s).index = s.index := rfl
@[simp] theorem illegal_len (s : State) : (illegal s).len = s.len := rfl
@[simp] theorem illegal_dst (s : State) : (illegal s).dst = s.dst := rfl
@[simp] theorem illegal_cmd (s : State) : (illegal s).cmd = s.cmd.tail := rfl
@[simp] theorem illegal_pay (s : State) : (illegal s).pay = s.pay := rfl
@[simp] theorem illegal_rsp (s : State) : (illegal s).rsp = s.rsp ++ [responseWord .illegal 0#36 0#36] := rfl
@[simp] theorem illegal_dstw (s : State) : (illegal s).dstw = s.dstw := rfl
@[simp] theorem illegal_freeCount (s : State) : (illegal s).freeCount = s.freeCount := rfl

@[simp] theorem bindDestination_cache (n : BitVec 32) (s : State) : (bindDestination n s).cache = 0#64 := rfl
@[simp] theorem bindDestination_fill (n : BitVec 32) (s : State) : (bindDestination n s).fill = 0#7 := rfl
@[simp] theorem bindDestination_index (n : BitVec 32) (s : State) : (bindDestination n s).index = 0#32 := rfl
@[simp] theorem bindDestination_len (n : BitVec 32) (s : State) : (bindDestination n s).len = n := rfl
@[simp] theorem bindDestination_dst (n : BitVec 32) (s : State) : (bindDestination n s).dst = s.dst := rfl
@[simp] theorem bindDestination_cmd (n : BitVec 32) (s : State) : (bindDestination n s).cmd = s.cmd := rfl
@[simp] theorem bindDestination_pay (n : BitVec 32) (s : State) : (bindDestination n s).pay = s.pay := rfl
@[simp] theorem bindDestination_rsp (n : BitVec 32) (s : State) : (bindDestination n s).rsp = s.rsp := rfl
@[simp] theorem bindDestination_dstw (n : BitVec 32) (s : State) : (bindDestination n s).dstw = s.dstw := rfl
@[simp] theorem bindDestination_freeCount (n : BitVec 32) (s : State) : (bindDestination n s).freeCount = s.freeCount := rfl

@[simp] theorem clearDataPath_cache (s : State) : (clearDataPath s).cache = 0#64 := rfl
@[simp] theorem clearDataPath_fill (s : State) : (clearDataPath s).fill = 0#7 := rfl
@[simp] theorem clearDataPath_index (s : State) : (clearDataPath s).index = 0#32 := rfl
@[simp] theorem clearDataPath_len (s : State) : (clearDataPath s).len = s.len := rfl
@[simp] theorem clearDataPath_dst (s : State) : (clearDataPath s).dst = s.dst := rfl
@[simp] theorem clearDataPath_cmd (s : State) : (clearDataPath s).cmd = s.cmd := rfl
@[simp] theorem clearDataPath_pay (s : State) : (clearDataPath s).pay = s.pay := rfl
@[simp] theorem clearDataPath_rsp (s : State) : (clearDataPath s).rsp = s.rsp := rfl
@[simp] theorem clearDataPath_dstw (s : State) : (clearDataPath s).dstw = s.dstw := rfl
@[simp] theorem clearDataPath_freeCount (s : State) : (clearDataPath s).freeCount = s.freeCount := rfl

@[simp] theorem consumePayload_cache (l : Nat) (s : State) : (consumePayload l s).cache = s.cache := rfl
@[simp] theorem consumePayload_fill (l : Nat) (s : State) : (consumePayload l s).fill = s.fill := rfl
@[simp] theorem consumePayload_index (l : Nat) (s : State) : (consumePayload l s).index = s.index := rfl
@[simp] theorem consumePayload_len (l : Nat) (s : State) : (consumePayload l s).len = s.len := rfl
@[simp] theorem consumePayload_dst (l : Nat) (s : State) : (consumePayload l s).dst = s.dst := rfl
@[simp] theorem consumePayload_cmd (l : Nat) (s : State) : (consumePayload l s).cmd = s.cmd := rfl
@[simp] theorem consumePayload_pay (l : Nat) (s : State) : (consumePayload l s).pay = s.pay.drop l := rfl
@[simp] theorem consumePayload_rsp (l : Nat) (s : State) : (consumePayload l s).rsp = s.rsp := rfl
@[simp] theorem consumePayload_dstw (l : Nat) (s : State) : (consumePayload l s).dstw = s.dstw := rfl
@[simp] theorem consumePayload_freeCount (l : Nat) (s : State) : (consumePayload l s).freeCount = s.freeCount := rfl

@[simp] theorem powerOn_cache (s : State) : (powerOn s).cache = 0#64 := rfl
@[simp] theorem powerOn_fill (s : State) : (powerOn s).fill = 0#7 := rfl
@[simp] theorem powerOn_index (s : State) : (powerOn s).index = 0#32 := rfl
@[simp] theorem powerOn_len (s : State) : (powerOn s).len = 0#32 := rfl
@[simp] theorem powerOn_dst (s : State) : (powerOn s).dst = s.dst := rfl
@[simp] theorem powerOn_cmd (s : State) : (powerOn s).cmd = s.cmd := rfl
@[simp] theorem powerOn_pay (s : State) : (powerOn s).pay = s.pay := rfl
@[simp] theorem powerOn_rsp (s : State) : (powerOn s).rsp = s.rsp := rfl
@[simp] theorem powerOn_dstw (s : State) : (powerOn s).dstw = s.dstw := rfl
@[simp] theorem powerOn_freeCount (s : State) : (powerOn s).freeCount = s.freeCount := rfl

@[simp] theorem present_cache (w : CommandWord) (p : List Byte) (s : State) : (State.present w p s).cache = s.cache := rfl
@[simp] theorem present_fill (w : CommandWord) (p : List Byte) (s : State) : (State.present w p s).fill = s.fill := rfl
@[simp] theorem present_index (w : CommandWord) (p : List Byte) (s : State) : (State.present w p s).index = s.index := rfl
@[simp] theorem present_len (w : CommandWord) (p : List Byte) (s : State) : (State.present w p s).len = s.len := rfl
@[simp] theorem present_dst (w : CommandWord) (p : List Byte) (s : State) : (State.present w p s).dst = s.dst := rfl
@[simp] theorem present_cmd (w : CommandWord) (p : List Byte) (s : State) : (State.present w p s).cmd = s.cmd ++ [w] := rfl
@[simp] theorem present_pay (w : CommandWord) (p : List Byte) (s : State) : (State.present w p s).pay = s.pay ++ p := rfl
@[simp] theorem present_rsp (w : CommandWord) (p : List Byte) (s : State) : (State.present w p s).rsp = s.rsp := rfl
@[simp] theorem present_dstw (w : CommandWord) (p : List Byte) (s : State) : (State.present w p s).dstw = s.dstw := rfl
@[simp] theorem present_freeCount (w : CommandWord) (p : List Byte) (s : State) : (State.present w p s).freeCount = s.freeCount := rfl

@[simp] theorem presentFirst_cache (w : CommandWord) (p : List Byte) (s : State) : (State.presentFirst w p s).cache = s.cache := rfl
@[simp] theorem presentFirst_fill (w : CommandWord) (p : List Byte) (s : State) : (State.presentFirst w p s).fill = s.fill := rfl
@[simp] theorem presentFirst_index (w : CommandWord) (p : List Byte) (s : State) : (State.presentFirst w p s).index = s.index := rfl
@[simp] theorem presentFirst_len (w : CommandWord) (p : List Byte) (s : State) : (State.presentFirst w p s).len = s.len := rfl
@[simp] theorem presentFirst_dst (w : CommandWord) (p : List Byte) (s : State) : (State.presentFirst w p s).dst = s.dst := rfl
@[simp] theorem presentFirst_cmd (w : CommandWord) (p : List Byte) (s : State) : (State.presentFirst w p s).cmd = w :: s.cmd := rfl
@[simp] theorem presentFirst_pay (w : CommandWord) (p : List Byte) (s : State) : (State.presentFirst w p s).pay = p ++ s.pay := rfl
@[simp] theorem presentFirst_rsp (w : CommandWord) (p : List Byte) (s : State) : (State.presentFirst w p s).rsp = s.rsp := rfl
@[simp] theorem presentFirst_dstw (w : CommandWord) (p : List Byte) (s : State) : (State.presentFirst w p s).dstw = s.dstw := rfl
@[simp] theorem presentFirst_freeCount (w : CommandWord) (p : List Byte) (s : State) : (State.presentFirst w p s).freeCount = s.freeCount := rfl

end Sys2Proof.Machine
end

