-- ==== Sys2Proof/Laws/Ops.lean ====
section
/-! SUPPORT. For each shared operation, what it does, said once: the fields it changes, the bits it places, the bytes it
writes. Proofs cite these and do not unfold the operations. -/

namespace Sys2Proof.Machine

/-! ### Writing bytes -/

@[simp] theorem length_eventsAt (off : Nat) (bs : List Byte) : (eventsAt off bs).length = bs.length := by
  induction bs generalizing off with
  | nil => rfl
  | cons b bs ih => simp [eventsAt, ih]

/-- All that `writeBytes` does: its events happen, in order, and are recorded. -/
theorem writeBytes_eq (off : Nat) (bs : List Byte) (s : State) :
    writeBytes off bs s =
      { s with dst := Memory.applyEvents s.dst (eventsAt off bs), dstw := s.dstw ++ eventsAt off bs } := by
  induction bs generalizing off s with
  | nil => simp [writeBytes, eventsAt]
  | cons b bs ih => rw [writeBytes, ih]; simp [writeByte, eventsAt]

theorem mem_eventsAt {off : Nat} {bs : List Byte} {c : Host.Cell} (h : c ∈ eventsAt off bs) :
    off ≤ c.1 ∧ c.1 < off + bs.length := by
  induction bs generalizing off with
  | nil => simp [eventsAt] at h
  | cons b bs ih =>
    rcases List.mem_cons.1 h with rfl | h
    · simp
    · have := ih h
      simp only [List.length_cons]
      omega

theorem eventsAt_append (off : Nat) (bs bs' : List Byte) :
    eventsAt off (bs ++ bs') = eventsAt off bs ++ eventsAt (off + bs.length) bs' := by
  induction bs generalizing off with
  | nil => simp [eventsAt]
  | cons b bs ih =>
    simp only [List.cons_append, eventsAt, ih, List.length_cons]
    rw [show off + 1 + bs.length = off + (bs.length + 1) by omega]

/-- What the destination reads as after a run of bytes. -/
theorem read_applyEvents_eventsAt (m : Memory) (off : Nat) (bs : List Byte) (a : Nat) :
    Memory.read (Memory.applyEvents m (eventsAt off bs)) a =
      if off ≤ a ∧ a < off + bs.length then bs[a - off]? else Memory.read m a := by
  induction bs generalizing off m with
  | nil => simp [eventsAt]
  | cons b bs ih =>
    rw [eventsAt, Memory.applyEvents_cons, ih]
    by_cases h : a = off
    · subst h; simp
    · rw [Memory.read_write_other _ _ _ _ h]
      by_cases h' : off ≤ a ∧ a < off + (b :: bs).length
      · rw [if_pos h', if_pos (by simp only [List.length_cons] at h'; omega)]
        obtain ⟨k, hk⟩ : ∃ k, a - off = k + 1 := ⟨a - off - 1, by omega⟩
        rw [hk, show a - (off + 1) = k by omega, List.getElem?_cons_succ]
      · rw [if_neg h', if_neg (by simp only [List.length_cons] at h'; omega)]

@[simp] theorem length_bytesMsbFirst (n : Nat) (v : BitVec (8 * n)) : (bytesMsbFirst n v).length = n := by
  simp [bytesMsbFirst]

theorem bytesMsbFirst_four (c : BitVec 64) :
    bytesMsbFirst 4 (c.extractLsb' 32 32) =
      [c.extractLsb' 56 8, c.extractLsb' 48 8, c.extractLsb' 40 8, c.extractLsb' 32 8] := by
  simp only [bytesMsbFirst, List.range_succ, List.range_zero, List.nil_append, List.map_cons,
    List.map_nil, List.cons_append]
  refine congrArg₂ _ ?_ (congrArg₂ _ ?_ (congrArg₂ _ ?_ (congrArg₂ _ ?_ rfl))) <;>
  · apply BitVec.eq_of_getLsbD_eq
    intro i hi
    simp only [BitVec.getLsbD_extractLsb', hi, decide_true, Bool.true_and]
    rw [decide_eq_true (by omega), Bool.true_and]
    congr 1
    omega

theorem bytesMsbFirst_one (c : BitVec 64) :
    bytesMsbFirst 1 (c.extractLsb' 56 8) = [c.extractLsb' 56 8] := by
  simp only [bytesMsbFirst, List.range_succ, List.range_zero, List.nil_append, List.map_cons, List.map_nil]
  refine congrArg₂ _ ?_ rfl
  apply BitVec.eq_of_getLsbD_eq
  intro i hi
  simp [hi]

/-! ### Advancing the index -/

/-- Inside the envelope `INDEX` holds the sum. -/
theorem advanceIndex_of_lt {d : Nat} {s : State} (h : s.index.toNat + d < Config.indexLimit) :
    advanceIndex d s = { s with index := BitVec.ofNat 32 (s.index.toNat + d) } := if_pos h

/-- Outside the envelope `INDEX` takes the next free value. -/
theorem advanceIndex_of_ge {d : Nat} {s : State} (h : Config.indexLimit ≤ s.index.toNat + d) :
    advanceIndex d s =
      { s with index := Config.indexBeyondEnvelope s.freeCount, freeCount := s.freeCount + 1 } :=
  if_neg (by omega)

theorem advanceIndex_index {d : Nat} {s : State} (h : s.index.toNat + d < Config.indexLimit) :
    (advanceIndex d s).index.toNat = s.index.toNat + d := by
  rw [advanceIndex_of_lt h]
  simp only [BitVec.toNat_ofNat]
  exact Nat.mod_eq_of_lt h

theorem advanceIndex_freeCount {d : Nat} {s : State} (h : s.index.toNat + d < Config.indexLimit) :
    (advanceIndex d s).freeCount = s.freeCount := by
  rw [advanceIndex_of_lt h]

@[simp] theorem advanceIndex_zero (s : State) : advanceIndex 0 s = s := by
  rw [advanceIndex_of_lt (by simpa using s.index.isLt)]
  simp

@[simp] theorem advanceIndex_cache (d : Nat) (s : State) : (advanceIndex d s).cache = s.cache := by
  unfold advanceIndex; split <;> rfl
@[simp] theorem advanceIndex_fill (d : Nat) (s : State) : (advanceIndex d s).fill = s.fill := by
  unfold advanceIndex; split <;> rfl
@[simp] theorem advanceIndex_len (d : Nat) (s : State) : (advanceIndex d s).len = s.len := by
  unfold advanceIndex; split <;> rfl
@[simp] theorem advanceIndex_dst (d : Nat) (s : State) : (advanceIndex d s).dst = s.dst := by
  unfold advanceIndex; split <;> rfl
@[simp] theorem advanceIndex_cmd (d : Nat) (s : State) : (advanceIndex d s).cmd = s.cmd := by
  unfold advanceIndex; split <;> rfl
@[simp] theorem advanceIndex_pay (d : Nat) (s : State) : (advanceIndex d s).pay = s.pay := by
  unfold advanceIndex; split <;> rfl
@[simp] theorem advanceIndex_rsp (d : Nat) (s : State) : (advanceIndex d s).rsp = s.rsp := by
  unfold advanceIndex; split <;> rfl
@[simp] theorem advanceIndex_dstw (d : Nat) (s : State) : (advanceIndex d s).dstw = s.dstw := by
  unfold advanceIndex; split <;> rfl

/-! ### The insertion-time drain -/

/-- The write events of `DRAIN32` in state `s`: four, or none when the group does not fit (`41_put_be.md` R86). -/
def drain32Events (s : State) : List Host.Cell :=
  if s.index.toNat + 4 ≤ s.len.toNat then
    [(s.index.toNat, s.cache.extractLsb' 56 8), (s.index.toNat + 1, s.cache.extractLsb' 48 8),
     (s.index.toNat + 2, s.cache.extractLsb' 40 8), (s.index.toNat + 3, s.cache.extractLsb' 32 8)]
  else []

theorem drain32Write_eq (s : State) :
    drain32Write s =
      { s with dst := Memory.applyEvents s.dst (drain32Events s), dstw := s.dstw ++ drain32Events s } := by
  unfold drain32Write drain32Events
  split
  · rw [memWrite, writeBytes_eq, bytesMsbFirst_four]
    simp [eventsAt]
  · simp

/-- All that `DRAIN32` does. -/
theorem drain32_eq (s : State) :
    drain32 s =
      { advanceIndex 4 s with
        dst := Memory.applyEvents s.dst (drain32Events s), dstw := s.dstw ++ drain32Events s,
        cache := shl64 s.cache 32, fill := BitVec.ofNat 7 (s.fill.toNat - 32) } := by
  rw [drain32, drain32Write_eq]
  unfold advanceIndex shiftOut
  dsimp only
  split <;> rfl

theorem mem_drain32Events {s : State} {c : Host.Cell} (h : c ∈ drain32Events s) : c.1 < s.len.toNat := by
  unfold drain32Events at h
  split at h
  · simp only [List.mem_cons, List.not_mem_nil, or_false] at h
    rcases h with rfl | rfl | rfl | rfl <;> simp only <;> omega
  · simp at h

@[simp] theorem drain32_cache (s : State) : (drain32 s).cache = s.cache <<< 32 := by rw [drain32_eq]; rfl
@[simp] theorem drain32_len (s : State) : (drain32 s).len = s.len := by rw [drain32_eq]; simp
@[simp] theorem drain32_cmd (s : State) : (drain32 s).cmd = s.cmd := by rw [drain32_eq]; simp
@[simp] theorem drain32_pay (s : State) : (drain32 s).pay = s.pay := by rw [drain32_eq]; simp
@[simp] theorem drain32_rsp (s : State) : (drain32 s).rsp = s.rsp := by rw [drain32_eq]; simp
@[simp] theorem drain32_index (s : State) : (drain32 s).index = (advanceIndex 4 s).index := by rw [drain32_eq]
@[simp] theorem drain32_freeCount (s : State) : (drain32 s).freeCount = (advanceIndex 4 s).freeCount := by
  rw [drain32_eq]
@[simp] theorem drain32_dst (s : State) : (drain32 s).dst = Memory.applyEvents s.dst (drain32Events s) := by
  rw [drain32_eq]
@[simp] theorem drain32_dstw (s : State) : (drain32 s).dstw = s.dstw ++ drain32Events s := by rw [drain32_eq]
theorem drain32_fill (s : State) : (drain32 s).fill.toNat = s.fill.toNat - 32 := by
  rw [drain32_eq]
  have := s.fill.isLt
  simp only [BitVec.toNat_ofNat]
  omega

/-! ### Insertion -/

theorem drainFor_of_fits {n : Nat} {s : State} (h : s.fill.toNat + n ≤ 64) : drainFor n s = s := if_neg (by omega)

theorem drainFor_of_full {n : Nat} {s : State} (h : 64 < s.fill.toNat + n) : drainFor n s = drain32 s := if_pos h

/-- After step 2 of `PUT_BE` the new bits fit (`41_put_be.md` R87). -/
theorem drainFor_makes_room {n : Nat} {s : State} (hn : n ≤ 32) (hf : s.fill.toNat ≤ 64) :
    (drainFor n s).fill.toNat + n ≤ 64 := by
  by_cases h : 64 < s.fill.toNat + n
  · rw [drainFor_of_full h, drain32_fill]; omega
  · rw [drainFor_of_fits (by omega)]; omega

@[simp] theorem drainFor_len (n : Nat) (s : State) : (drainFor n s).len = s.len := by
  unfold drainFor; split <;> simp
@[simp] theorem drainFor_cmd (n : Nat) (s : State) : (drainFor n s).cmd = s.cmd := by
  unfold drainFor; split <;> simp
@[simp] theorem drainFor_pay (n : Nat) (s : State) : (drainFor n s).pay = s.pay := by
  unfold drainFor; split <;> simp
@[simp] theorem drainFor_rsp (n : Nat) (s : State) : (drainFor n s).rsp = s.rsp := by
  unfold drainFor; split <;> simp

/-- Shifting the register keeps it left-justified when whole pending bits leave it. -/
theorem leftJustified_shift {c : BitVec 64} {f k : Nat} (h : c <<< f = 0#64) (hk : k ≤ f) :
    (c <<< k) <<< (f - k) = 0#64 := by
  rw [← BitVec.shiftLeft_add, Nat.add_sub_cancel' hk, h]

theorem drain32_leftJustified {s : State} (h : LeftJustified s) (hf : 32 ≤ s.fill.toNat) :
    LeftJustified (drain32 s) := by
  unfold LeftJustified
  rw [drain32_cache, drain32_fill]
  exact leftJustified_shift h hf

theorem drainFor_leftJustified {n : Nat} {s : State} (h : LeftJustified s) (hn : n ≤ 32) :
    LeftJustified (drainFor n s) := by
  by_cases hd : 64 < s.fill.toNat + n
  · rw [drainFor_of_full hd]; exact drain32_leftJustified h (by omega)
  · rw [drainFor_of_fits (by omega)]; exact h

/-- A left-justified register has no one bit below the pending ones. -/
theorem getMsbD_of_leftJustified {c : BitVec 64} {f : Nat} (h : c <<< f = 0#64) {j : Nat} (hj : f ≤ j) :
    c.getMsbD j = false := by
  by_cases hj' : j < 64
  · have h' := congrArg (fun x => x.getMsbD (j - f)) h
    simp only [BitVec.getMsbD_shiftLeft, BitVec.getMsbD_zero] at h'
    rwa [Nat.sub_add_cancel hj] at h'
  · exact BitVec.getMsbD_of_ge _ _ (by omega)

theorem leftJustified_of_getMsbD {c : BitVec 64} {f : Nat} (h : ∀ j, f ≤ j → c.getMsbD j = false) :
    c <<< f = 0#64 := by
  apply BitVec.eq_of_getMsbD_eq
  intro j hj
  rw [BitVec.getMsbD_shiftLeft, h _ (by omega)]
  simp

theorem mask_getLsbD (w n i : Nat) : (mask w n).getLsbD i = (decide (i < w) && decide (i < n)) := by
  simp [mask, BitVec.getLsbD_ofNat, Nat.testBit_two_pow_sub_one]

theorem masked_getLsbD {w : Nat} (v : BitVec w) (n i : Nat) :
    (v &&& mask w n).getLsbD i = (decide (i < n) && v.getLsbD i) := by
  rw [BitVec.getLsbD_and, mask_getLsbD]
  by_cases h : i < w
  · simp [h, Bool.and_comm]
  · simp [BitVec.getLsbD_of_ge v i (by omega)]

/-- The bits `appendBits` places: `m`'s low `n` bits, most significant first, directly below the pending ones. -/
theorem appendBits_getMsbD {n : Nat} {m : BitVec 32} {s : State} (hfit : s.fill.toNat + n ≤ 64)
    (hm : ∀ i, n ≤ i → m.getLsbD i = false) (hlj : LeftJustified s) (j : Nat) (hj : j < 64) :
    (appendBits n m s).cache.getMsbD j =
      if j < s.fill.toNat then s.cache.getMsbD j
      else if j < s.fill.toNat + n then m.getLsbD (n - 1 - (j - s.fill.toNat)) else false := by
  rw [appendBits_cache, BitVec.getMsbD_or]
  have hx : (shl64 (zext64 m) (64 - s.fill.toNat - n)).getMsbD j =
      (decide (64 - s.fill.toNat - n ≤ 63 - j) && m.getLsbD (63 - j - (64 - s.fill.toNat - n))) := by
    rw [shl64, BitVec.getMsbD_eq_getLsbD, BitVec.getLsbD_shiftLeft, zext64, BitVec.getLsbD_setWidth]
    have h1 : 64 - 1 - j = 63 - j := by omega
    rw [h1]
    by_cases h2 : 64 - s.fill.toNat - n ≤ 63 - j
    · have h3 : 63 - j - (64 - s.fill.toNat - n) < 64 := by omega
      simp [hj, h2, h3]
      omega
    · simp [h2]
  rw [hx]
  by_cases h : j < s.fill.toNat
  · rw [if_pos h, hm _ (by omega)]; simp
  · rw [if_neg h, getMsbD_of_leftJustified hlj (by omega), Bool.false_or]
    by_cases h' : j < s.fill.toNat + n
    · rw [if_pos h', decide_eq_true (by omega), Bool.true_and]
      congr 1
      omega
    · rw [if_neg h', decide_eq_false (by omega), Bool.false_and]

theorem appendBits_fill_toNat {n : Nat} {m : BitVec 32} {s : State} (h : s.fill.toNat + n ≤ 64) :
    (appendBits n m s).fill.toNat = s.fill.toNat + n := by
  simp only [appendBits_fill, BitVec.toNat_ofNat]
  omega

@[simp] theorem insertBe_len (n : Nat) (v : BitVec 32) (s : State) : (insertBe n v s).len = s.len := by simp [insertBe]
@[simp] theorem insertBe_cmd (n : Nat) (v : BitVec 32) (s : State) : (insertBe n v s).cmd = s.cmd := by simp [insertBe]
@[simp] theorem insertBe_pay (n : Nat) (v : BitVec 32) (s : State) : (insertBe n v s).pay = s.pay := by simp [insertBe]
@[simp] theorem insertBe_rsp (n : Nat) (v : BitVec 32) (s : State) : (insertBe n v s).rsp = s.rsp := by simp [insertBe]
@[simp] theorem insertBe_index (n : Nat) (v : BitVec 32) (s : State) :
    (insertBe n v s).index = (drainFor n s).index := rfl
@[simp] theorem insertBe_freeCount (n : Nat) (v : BitVec 32) (s : State) :
    (insertBe n v s).freeCount = (drainFor n s).freeCount := rfl
@[simp] theorem insertBe_dst (n : Nat) (v : BitVec 32) (s : State) : (insertBe n v s).dst = (drainFor n s).dst := rfl
@[simp] theorem insertBe_dstw (n : Nat) (v : BitVec 32) (s : State) : (insertBe n v s).dstw = (drainFor n s).dstw := rfl

theorem insertBe_fill {n : Nat} {v : BitVec 32} {s : State} (hn : n ≤ 32) (hf : s.fill.toNat ≤ 64) :
    (insertBe n v s).fill.toNat = (drainFor n s).fill.toNat + n :=
  appendBits_fill_toNat (drainFor_makes_room hn hf)

/-- The bits `PUT_BE` places (`41_put_be.md` R87). -/
theorem insertBe_getMsbD {n : Nat} {v : BitVec 32} {s : State} (hn : n ≤ 32) (hf : s.fill.toNat ≤ 64)
    (hlj : LeftJustified s) (j : Nat) (hj : j < 64) :
    (insertBe n v s).cache.getMsbD j =
      if j < (drainFor n s).fill.toNat then (drainFor n s).cache.getMsbD j
      else if j < (drainFor n s).fill.toNat + n then v.getLsbD (n - 1 - (j - (drainFor n s).fill.toNat)) else false := by
  rw [insertBe, appendBits_getMsbD (drainFor_makes_room hn hf) _ (drainFor_leftJustified hlj hn) j hj]
  · split
    · rfl
    · split
      · rw [masked_getLsbD, decide_eq_true (by omega), Bool.true_and]
      · rfl
  · intro i hi
    rw [masked_getLsbD, decide_eq_false (by omega), Bool.false_and]

/-- `PUT_BE` keeps the register left-justified and `FILL` within 64 (`10_state.md` R11, R12). -/
theorem insertBe_leftJustified {n : Nat} {v : BitVec 32} {s : State} (hn : n ≤ 32) (hf : s.fill.toNat ≤ 64)
    (hlj : LeftJustified s) : LeftJustified (insertBe n v s) ∧ (insertBe n v s).fill.toNat ≤ 64 := by
  have hroom := drainFor_makes_room hn hf
  refine ⟨leftJustified_of_getMsbD fun j hj => ?_, by rw [insertBe_fill hn hf]; exact hroom⟩
  rw [insertBe_fill hn hf] at hj
  by_cases h : j < 64
  · rw [insertBe_getMsbD hn hf hlj j h, if_neg (by omega), if_neg (by omega)]
  · exact BitVec.getMsbD_of_ge _ _ (by omega)

/-! ### The flush loop -/

/-- The bytes at the top of the register, oldest first. -/
def topBytes (k : Nat) (c : BitVec 64) : List Byte :=
  (List.range k).map fun j => (c <<< (8 * j)).extractLsb' 56 8

@[simp] theorem length_topBytes (k : Nat) (c : BitVec 64) : (topBytes k c).length = k := by simp [topBytes]

@[simp] theorem length_oldestBytes (k : Nat) (c : BitVec 64) : (oldestBytes k c).length = k := by simp [oldestBytes]

/-- Of the at most eight bytes of the register, the shifted top bytes are its oldest bytes. -/
theorem topBytes_eq_oldestBytes {k : Nat} (hk : k ≤ 8) (c : BitVec 64) : topBytes k c = oldestBytes k c := by
  apply List.map_congr_left
  intro j hj
  have hj : j < k := List.mem_range.1 hj
  apply BitVec.eq_of_getLsbD_eq
  intro i hi
  simp only [BitVec.getLsbD_extractLsb', BitVec.getLsbD_shiftLeft, hi, decide_true, Bool.true_and]
  rw [decide_eq_true (by omega), decide_eq_false (by omega), Bool.not_false, Bool.true_and, Bool.true_and]
  congr 1
  omega

theorem topBytes_succ (k : Nat) (c : BitVec 64) :
    topBytes (k + 1) c = c.extractLsb' 56 8 :: topBytes k (c <<< 8) := by
  simp only [topBytes, List.range_succ_eq_map, List.map_cons, List.map_map, Nat.mul_zero, BitVec.shiftLeft_zero]
  congr 1
  apply List.map_congr_left
  intro j _
  simp only [Function.comp_apply, ← BitVec.shiftLeft_add]
  congr 2
  omega

/-- The state after `k` turns of the flush loop. -/
def flushed (k : Nat) (s : State) : State :=
  { s with
    cache := s.cache <<< (8 * k), fill := BitVec.ofNat 7 (s.fill.toNat - 8 * k)
    index := BitVec.ofNat 32 (s.index.toNat + k)
    dst := Memory.applyEvents s.dst (eventsAt s.index.toNat (topBytes k s.cache))
    dstw := s.dstw ++ eventsAt s.index.toNat (topBytes k s.cache) }

theorem flushByte_eq {s : State} (h : s.index.toNat < s.len.toNat) : flushByte s = flushed 1 s := by
  have hl := s.len.isLt
  unfold flushByte memWrite
  rw [bytesMsbFirst_one, writeBytes_eq, advanceIndex_of_lt (by change s.index.toNat + 1 < 4294967296; omega)]
  simp [shiftOut, flushed, topBytes, eventsAt, shl64]

theorem flushed_zero (s : State) : flushed 0 s = s := by
  simp [flushed, topBytes, eventsAt]

/-- One more turn of the loop. -/
theorem flushed_flushed_one {s : State} {k : Nat} (hf : 8 ≤ s.fill.toNat) (hi : s.index.toNat < s.len.toNat) :
    flushed k (flushed 1 s) = flushed (k + 1) s := by
  have hl := s.len.isLt
  have hfl := s.fill.isLt
  have h1 : (BitVec.ofNat 32 (s.index.toNat + 1)).toNat = s.index.toNat + 1 := by
    rw [BitVec.toNat_ofNat]; omega
  have h2 : (BitVec.ofNat 7 (s.fill.toNat - 8)).toNat = s.fill.toNat - 8 := by
    rw [BitVec.toNat_ofNat]; omega
  have h3 : topBytes (k + 1) s.cache = topBytes 1 s.cache ++ topBytes k (s.cache <<< 8) := by
    rw [topBytes_succ]; simp [topBytes]
  have h4 : eventsAt s.index.toNat (topBytes (k + 1) s.cache) =
      eventsAt s.index.toNat (topBytes 1 s.cache) ++ eventsAt (s.index.toNat + 1) (topBytes k (s.cache <<< 8)) := by
    rw [h3, eventsAt_append, length_topBytes]
  unfold flushed
  dsimp only
  rw [h1, Nat.mul_one, h2, h4, Memory.applyEvents_append, ← List.append_assoc, ← BitVec.shiftLeft_add,
    show 8 + 8 * k = 8 * (k + 1) by omega, show s.fill.toNat - 8 - 8 * k = s.fill.toNat - 8 * (k + 1) by omega,
    show s.index.toNat + 1 + k = s.index.toNat + (k + 1) by omega]

/-- All that the loop does, however often it may turn. -/
theorem flushLoop_eq (fuel : Nat) (s : State) :
    flushLoop fuel s = flushed (min fuel (flushCount s)) s := by
  induction fuel generalizing s with
  | zero => simp [flushLoop, flushed_zero]
  | succ fuel ih =>
    rw [flushLoop]
    split
    · rename_i h
      have hl := s.len.isLt
      have hfl := s.fill.isLt
      rw [flushByte_eq h.2, ih, flushed_flushed_one h.1 h.2]
      congr 1
      have h1 : (BitVec.ofNat 32 (s.index.toNat + 1)).toNat = s.index.toNat + 1 := by
        rw [BitVec.toNat_ofNat]; omega
      have h2 : (BitVec.ofNat 7 (s.fill.toNat - 8)).toNat = s.fill.toNat - 8 := by
        rw [BitVec.toNat_ofNat]; omega
      have hc : flushCount (flushed 1 s) + 1 = flushCount s := by
        unfold flushCount flushed
        dsimp only
        rw [h1, Nat.mul_one, h2]
        omega
      omega
    · rename_i h
      have hc : flushCount s = 0 := by unfold flushCount; omega
      rw [hc, Nat.min_zero, flushed_zero]

/-- All that step 1 of `FLUSH_CORE` does (`44_flush.md` R100, R104). -/
theorem flushDrain_eq (s : State) : flushDrain s = flushed (flushCount s) s := by
  rw [flushDrain, flushLoop_eq]
  congr 1
  unfold flushCount
  omega

theorem flushed_fill {k : Nat} {s : State} : (flushed k s).fill.toNat = s.fill.toNat - 8 * k := by
  have := s.fill.isLt
  simp only [flushed, BitVec.toNat_ofNat]
  omega

theorem flushed_index {k : Nat} {s : State} (h : k ≤ s.len.toNat - s.index.toNat) :
    (flushed k s).index.toNat = s.index.toNat + k := by
  have hl := s.len.isLt
  have hi := s.index.isLt
  simp only [flushed, BitVec.toNat_ofNat]
  omega

theorem flushDrain_fill (s : State) : (flushDrain s).fill.toNat = s.fill.toNat - 8 * flushCount s := by
  rw [flushDrain_eq, flushed_fill]

theorem flushDrain_index (s : State) : (flushDrain s).index.toNat = s.index.toNat + flushCount s := by
  rw [flushDrain_eq, flushed_index (by unfold flushCount; omega)]

@[simp] theorem flushDrain_cache (s : State) : (flushDrain s).cache = s.cache <<< (8 * flushCount s) := by
  rw [flushDrain_eq]; rfl
@[simp] theorem flushDrain_len (s : State) : (flushDrain s).len = s.len := by rw [flushDrain_eq]; rfl
@[simp] theorem flushDrain_cmd (s : State) : (flushDrain s).cmd = s.cmd := by rw [flushDrain_eq]; rfl
@[simp] theorem flushDrain_pay (s : State) : (flushDrain s).pay = s.pay := by rw [flushDrain_eq]; rfl
@[simp] theorem flushDrain_rsp (s : State) : (flushDrain s).rsp = s.rsp := by rw [flushDrain_eq]; rfl
@[simp] theorem flushDrain_freeCount (s : State) : (flushDrain s).freeCount = s.freeCount := by rw [flushDrain_eq]; rfl
@[simp] theorem flushDrain_dst (s : State) : (flushDrain s).dst =
    Memory.applyEvents s.dst (eventsAt s.index.toNat (topBytes (flushCount s) s.cache)) := by rw [flushDrain_eq]; rfl
@[simp] theorem flushDrain_dstw (s : State) : (flushDrain s).dstw =
    s.dstw ++ eventsAt s.index.toNat (topBytes (flushCount s) s.cache) := by rw [flushDrain_eq]; rfl

/-- The status of a flush from the state before it: OK exactly when `FlushSucceeds` (`44_flush.md` R104). -/
theorem flushStatus_flushDrain (s : State) :
    flushStatus (flushDrain s) =
      if 8 * s.len.toNat < position s ∨ s.len.toNat < s.index.toNat then .overflow
      else if position s % 8 = 0 then .ok else .underflow := by
  have hff : (flushDrain s).fill = 0#7 ↔ s.fill.toNat - 8 * flushCount s = 0 := by
    rw [← BitVec.toNat_inj, flushDrain_fill]; rfl
  have hk : flushCount s = min (s.fill.toNat / 8) (s.len.toNat - s.index.toNat) := rfl
  have hfl := s.fill.isLt
  have hp : position s = s.index.toNat * 8 + s.fill.toNat := rfl
  unfold flushStatus ceil8
  rw [flushDrain_len, flushDrain_index, flushDrain_fill]
  by_cases h1 : 8 * s.len.toNat < position s ∨ s.len.toNat < s.index.toNat
  · rw [if_pos h1, if_pos (by omega)]
  · rw [if_neg h1, if_neg (by omega)]
    by_cases h2 : position s % 8 = 0
    · rw [if_pos h2, if_neg (by rw [ne_eq, hff, not_not]; omega)]
    · rw [if_neg h2, if_pos (by rw [ne_eq, hff]; omega)]

/-! ### The bulk write -/

/-- All that the copy of `WRB` does to the destination and the index. -/
theorem copyPayload_eq (p : List Byte) (s : State) :
    copyPayload p s =
      { advanceIndex p.length s with
        dst := Memory.applyEvents s.dst (eventsAt s.index.toNat (p.take (bytesThatFit p.length s)))
        dstw := s.dstw ++ eventsAt s.index.toNat (p.take (bytesThatFit p.length s)) } := by
  rw [copyPayload, writeBytes_eq]
  unfold advanceIndex
  dsimp only
  split <;> rfl

theorem writePayload_of_ok {p : List Byte} {s : State} (h : flushStatus (flushDrain s) = .ok) :
    writePayload p s =
      respond (copyStatus (bytesThatFit p.length (flushDrain s)) p.length)
        (BitVec.ofNat 36 (bytesThatFit p.length (flushDrain s))) 0#36 (copyPayload p (flushDrain s)) := by
  rw [writePayload, h]

theorem writePayload_of_error {p : List Byte} {s : State} (h : flushStatus (flushDrain s) ≠ .ok) :
    writePayload p s = respond (flushStatus (flushDrain s)) 0#36 0#36 (flushDrain s) := by
  unfold writePayload
  split
  · contradiction
  · rfl

/-! ### Answering does not touch the data path -/

theorem advanceIndex_respond (d : Nat) (st : Status) (a b : BitVec 36) (s : State) :
    advanceIndex d (respond st a b s) = respond st a b (advanceIndex d s) := by
  unfold advanceIndex
  rw [respond_index]
  split <;> rfl

theorem drain32_respond (st : Status) (a b : BitVec 36) (s : State) :
    drain32 (respond st a b s) = respond st a b (drain32 s) := by
  rw [drain32_eq, drain32_eq, advanceIndex_respond]
  rfl

theorem insertBe_respond (n : Nat) (v : BitVec 32) (st : Status) (a b : BitVec 36) (s : State) :
    insertBe n v (respond st a b s) = respond st a b (insertBe n v s) := by
  have ha : ∀ m u, appendBits n m (respond st a b u) = respond st a b (appendBits n m u) := fun _ _ => rfl
  unfold insertBe
  by_cases h : 64 < s.fill.toNat + n
  · rw [drainFor_of_full h, drainFor_of_full (by exact h), drain32_respond, ha]
  · rw [drainFor_of_fits (s := s) (by omega), drainFor_of_fits (s := respond st a b s) (by rw [respond_fill]; omega), ha]

theorem insertLe_respond (n : Nat) (v : BitVec 32) (st : Status) (a b : BitVec 36) (s : State) :
    insertLe n v (respond st a b s) = respond st a b (insertLe n v s) := insertBe_respond _ _ _ _ _ _

theorem flushDrain_respond (st : Status) (a b : BitVec 36) (s : State) :
    flushDrain (respond st a b s) = respond st a b (flushDrain s) := by
  rw [flushDrain_eq, flushDrain_eq]
  rfl

end Sys2Proof.Machine
end

