-- ==== Sys2Proof/Laws/Exec.lean ====
section
/-! SUPPORT. What `exec` and `step` can do, said once, and the bounds of every write. -/

namespace Sys2Proof.Machine

/-- From `s` to `t` only the data path and the destination changed, and every byte written lies in `[0, LEN)`
(`20_memory.md` R37, R40, R45). -/
def Drains (s t : State) : Prop :=
  t.len = s.len ∧ t.cmd = s.cmd ∧ t.pay = s.pay ∧ t.rsp = s.rsp ∧
  ∃ ev, t.dstw = s.dstw ++ ev ∧ t.dst = Memory.applyEvents s.dst ev ∧ ∀ c ∈ ev, c.1 < s.len.toNat

theorem Drains.trans {s t u : State} (h1 : Drains s t) (h2 : Drains t u) : Drains s u := by
  obtain ⟨a1, a2, a3, a4, e1, a5, a6, a7⟩ := h1
  obtain ⟨b1, b2, b3, b4, e2, b5, b6, b7⟩ := h2
  refine ⟨b1.trans a1, b2.trans a2, b3.trans a3, b4.trans a4, e1 ++ e2, ?_, ?_, ?_⟩
  · rw [b5, a5, List.append_assoc]
  · rw [b6, a6, Memory.applyEvents_append]
  · intro c hc
    rcases List.mem_append.1 hc with h | h
    · exact a7 c h
    · rw [← a1]; exact b7 c h

theorem drains_insertBe (n : Nat) (v : BitVec 32) (s : State) : Drains s (insertBe n v s) := by
  refine ⟨by simp, by simp, by simp, by simp, ?_⟩
  rw [insertBe_dst, insertBe_dstw]
  unfold drainFor
  split
  · exact ⟨drain32Events s, by simp, by simp, fun c hc => mem_drain32Events hc⟩
  · exact ⟨[], by simp⟩
theorem drains_insertLe (n : Nat) (v : BitVec 32) (s : State) : Drains s (insertLe n v s) := drains_insertBe _ _ _
theorem drains_insert64Be (n : Nat) (v : BitVec 64) (s : State) : Drains s (insert64Be n v s) := by
  unfold insert64Be; split
  · exact (drains_insertBe _ _ _).trans (drains_insertBe _ _ _)
  · exact (drains_insertBe _ _ _)
theorem drains_insert64Le (n : Nat) (v : BitVec 64) (s : State) : Drains s (insert64Le n v s) := by
  unfold insert64Le; split
  · exact (drains_insertLe _ _ _).trans (drains_insertLe _ _ _)
  · exact (drains_insertLe _ _ _)
theorem drains_flush (s : State) : Drains s (flushDrain s) := by
  refine ⟨by simp, by simp, by simp, by simp, _, by simp; rfl, by simp, fun c hc => ?_⟩
  have := mem_eventsAt hc
  simp only [length_topBytes, flushCount] at this
  omega
theorem drains_copy (p : List Byte) (s : State) : Drains s (copyPayload p s) := by
  rw [copyPayload_eq]
  refine ⟨by simp, by simp, by simp, by simp, _, rfl, rfl, fun c hc => ?_⟩
  have := mem_eventsAt hc
  simp only [List.length_take, bytesThatFit] at this
  omega

/-- Everything `exec` can do, by the shape of the next state. -/
theorem exec_cases (i : Instr) (s t : State) (h : exec i s = .next t) :
    (t = s ∧ ∃ l, i = .wrb l ∧ s.pay.length < l.toNat) ∨
    (∃ n, (i = .init n ∨ ∃ hh, i = .inith n hh) ∧ t = respond .ok 0#36 0#36 (bindDestination n s)) ∨
    (i = .reset ∧ t = respond .ok 0#36 0#36 (clearDataPath s)) ∨
    (i.wellFormed = false ∧ t = illegal s) ∨
    (∃ u, isInsertion i = true ∧ Drains s u ∧ t = respond .ok 0#36 0#36 u) ∨
    (i = .flush ∧ t = respond (flushStatus (flushDrain s)) 0#36 0#36 (flushDrain s)) ∨
    (∃ l, i = .wrb l ∧ t = writePayload (s.pay.take l.toNat) (consumePayload l.toNat s)) ∨
    (∃ a b, (i = .pos ∨ i = .rem ∨ i = .tail) ∧ t = respond .ok a b s) := by
  cases i <;> simp only [exec, execInit, execInith, execReset, execPutBe, execPutLe, execPut64Be, execPut64Le, execFlush, execWrb, execPos, execRem, execTail] at h
  case init n => injection h with h; exact .inr (.inl ⟨n, .inl rfl, h.symm⟩)
  case inith n hh => injection h with h; exact .inr (.inl ⟨n, .inr ⟨hh, rfl⟩, h.symm⟩)
  case reset => injection h with h; exact .inr (.inr (.inl ⟨rfl, h.symm⟩))
  case putBe n v =>
    split at h <;> injection h with h
    · exact .inr (.inr (.inr (.inr (.inl ⟨_, rfl, drains_insertBe _ _ _, h.symm⟩))))
    · exact .inr (.inr (.inr (.inl ⟨decide_eq_false ‹¬ _›, h.symm⟩)))
  case putLe n v =>
    split at h <;> injection h with h
    · exact .inr (.inr (.inr (.inr (.inl ⟨_, rfl, drains_insertLe _ _ _, h.symm⟩))))
    · exact .inr (.inr (.inr (.inl ⟨decide_eq_false ‹¬ _›, h.symm⟩)))
  case put64Be n v =>
    split at h <;> injection h with h
    · exact .inr (.inr (.inr (.inr (.inl ⟨_, rfl, drains_insert64Be _ _ _, h.symm⟩))))
    · exact .inr (.inr (.inr (.inl ⟨decide_eq_false ‹¬ _›, h.symm⟩)))
  case put64Le n v =>
    split at h <;> injection h with h
    · exact .inr (.inr (.inr (.inr (.inl ⟨_, rfl, drains_insert64Le _ _ _, h.symm⟩))))
    · exact .inr (.inr (.inr (.inl ⟨decide_eq_false ‹¬ _›, h.symm⟩)))
  case flush => injection h with h; exact .inr (.inr (.inr (.inr (.inr (.inl ⟨rfl, h.symm⟩)))))
  case wrb l =>
    split at h <;> injection h with h
    · exact .inl ⟨h.symm, l, rfl, ‹_›⟩
    · exact .inr (.inr (.inr (.inr (.inr (.inr (.inl ⟨l, rfl, h.symm⟩))))))
  all_goals injection h with h; exact .inr (.inr (.inr (.inr (.inr (.inr (.inr ⟨_, _, by simp, h.symm⟩))))))

/-- What a `WRB` with its payload in hand does, whatever its status. -/
theorem writePayload_drains (p : List Byte) (s : State) : ∃ u r st v0, Drains s u ∧ (writePayload p s) = respond st v0 0#36 u ∧ r = responseWord st v0 0#36 ∧ (st = .ok ∨ st = .overflow ∨ st = .underflow) := by
  by_cases h : flushStatus (flushDrain s) = .ok
  · rw [writePayload_of_ok h]
    refine ⟨_, _, _, _, (drains_flush s).trans (drains_copy p _), rfl, rfl, ?_⟩
    unfold copyStatus; split <;> simp
  · rw [writePayload_of_error h]
    refine ⟨_, _, _, _, drains_flush s, rfl, rfl, ?_⟩
    rw [flushStatus_flushDrain]; split_ifs <;> simp

/-- Everything `step` can do. -/
theorem step_cases (s t : State) (h : step s = .next t) :
    (s.cmd = [] ∧ t = s) ∨ (∃ w rest, s.cmd = w :: rest ∧ ((∃ e, decode w = .error e ∧ t = illegal s) ∨ ∃ i, decode w = .ok i ∧ exec i s = .next t)) := by
  unfold step nextCommand idle at h
  rcases hc : s.cmd with _ | ⟨w, rest⟩
  · rw [hc] at h; left; injection h with h; exact ⟨rfl, h.symm⟩
  · rw [hc] at h
    right; refine ⟨w, rest, rfl, ?_⟩
    simp only [List.head?_cons] at h
    cases hd : decode w with
    | ok i => rw [hd] at h; exact .inr ⟨i, rfl, h⟩
    | error e => rw [hd] at h; injection h with h; exact .inl ⟨e, rfl, h.symm⟩

end Sys2Proof.Machine
end

