-- ==== Sys2Proof/Laws/Operands.lean ====
section
/-! SUPPORT. The bits of the operand arithmetic: masks, byte swaps and the little-endian rearrangement. -/

namespace Sys2Proof.Machine

@[simp] theorem length_beBits {w : Nat} (n : Nat) (v : BitVec w) : (beBits n v).length = n := by simp [beBits]
@[simp] theorem length_leBits {w : Nat} (n : Nat) (v : BitVec w) : (leBits n v).length = n := by
  simp [leBits]; omega

theorem byteOf32_getLsbD (m : BitVec 32) (j i : Nat) : (byteOf32 m j).getLsbD i = (decide (i < 8) && m.getLsbD (8*j+i)) := by
  simp [byteOf32, BitVec.getLsbD_extractLsb']

/-- Bit `i` of the low whole bytes taken least significant first: byte `k − 1 − i div 8`, bit `i mod 8`. -/
theorem wholeBytes_getLsbD (m : BitVec 32) (k : Nat) (hk : k ≤ 4) (i : Nat) :
    (wholeBytesLsbFirst m k).getLsbD i = (decide (i < 8*k) && m.getLsbD (8 * (k - 1 - i/8) + i % 8)) := by
  induction k generalizing i with
  | zero => simp [wholeBytesLsbFirst]
  | succ k ih =>
    rw [wholeBytesLsbFirst, BitVec.getLsbD_or, BitVec.getLsbD_shiftLeft, BitVec.getLsbD_setWidth, byteOf32_getLsbD]
    by_cases h8 : i < 8
    · have : i / 8 = 0 := by omega
      have h2 : i % 8 = i := by omega
      have h3 : i < 32 := by omega
      have h4 : i < 8 * (k+1) := by omega
      simp [h8, this, h2, h3, h4]
    · by_cases h32 : i < 32
      · rw [ih (by omega)]
        have e1 : k + 1 - 1 - i/8 = k - 1 - (i - 8) / 8 := by omega
        have e2 : (i - 8) % 8 = i % 8 := by omega
        rw [e1, e2]
        have e3 : (i - 8 < 8 * k) ↔ (i < 8 * (k+1)) := by omega
        simp [h8, h32, e3]
      · have : ¬ i < 8 * (k+1) := by omega
        simp [h8, h32, this]

/-- Every bit of `le32(n, v)`, from `42_put_le.md` R92's first form. -/
theorem le32_getLsbD (n : Nat) (v : BitVec 32) (hn : n ≤ 32) (i : Nat) :
    (le32 n v).getLsbD i =
      if i < n % 8 then v.getLsbD (8 * (n/8) + i)
      else if i < n then v.getLsbD (8 * (n/8 - 1 - (i - n%8)/8) + (i - n % 8) % 8) else false := by
  rw [le32, BitVec.getLsbD_or, BitVec.getLsbD_shiftLeft, shr32, BitVec.getLsbD_ushiftRight, wholeBytes_getLsbD _ _ (by omega), masked_getLsbD, masked_getLsbD]
  by_cases h1 : i < n % 8
  · have : 8 * (n/8) + i < n := by omega
    simp [h1, this]
  · have h0 : ¬ (8 * (n/8) + i < n) := by omega
    by_cases h2 : i < n
    · have h3 : i < 32 := by omega
      have h4 : i - n % 8 < 8 * (n/8) := by omega
      have h5 : 8 * (n/8 - 1 - (i - n%8)/8) + (i - n % 8) % 8 < n := by omega
      simp [h1, h2, h0, h3, h4, h5]
    · have h4 : ¬ (i - n % 8 < 8 * (n/8)) := by omega
      simp [h1, h2, h0, h4]

/-- Stream bit `j` of the little-endian form. -/
theorem leBits_getElem? {w : Nat} (n : Nat) (v : BitVec w) (j : Nat) :
   (leBits n v)[j]? = if j < n then some (if j < 8 * (n/8) then v.getLsbD (8 * (j/8) + (7 - j % 8)) else v.getLsbD (n - 1 - (j - 8 * (n/8)))) else none := by
  have key : ∀ k j, (((List.range k).flatMap fun j => (List.range 8).map fun i => v.getLsbD (8 * j + (7 - i))))[j]? = if j < 8 * k then some (v.getLsbD (8 * (j/8) + (7 - j % 8))) else none := by
    intro k
    induction k with
    | zero => simp
    | succ k ih =>
      intro j
      rw [List.range_succ (n := k), List.flatMap_append, List.getElem?_append]
      simp only [List.length_flatMap, List.length_map, List.length_range, List.map_const', List.sum_replicate, smul_eq_mul]
      rw [ih]
      by_cases h : j < k * 8
      · rw [if_pos h, if_pos (by omega), if_pos (by omega)]
      · rw [if_neg h]
        by_cases h' : j < 8 * (k+1)
        · rw [if_pos h']
          have e1 : j / 8 = k := by omega
          have e2 : j % 8 = j - k * 8 := by omega
          have e3 : j - k * 8 < 8 := by omega
          simp [e1, e2, e3]
        · have e3 : ¬ j - k * 8 < 8 := by omega
          rw [if_neg h']; simp; omega
  unfold leBits
  rw [List.getElem?_append, key]
  simp only [List.length_flatMap, List.length_map, List.length_range, List.map_const', List.sum_replicate, smul_eq_mul]
  by_cases h : j < n / 8 * 8
  · rw [if_pos h, if_pos (by omega), if_pos (by omega), if_pos (by omega)]
  · rw [if_neg h]
    by_cases h' : j < n
    · have : j - n/8*8 < n % 8 := by omega
      rw [if_pos h', if_neg (by omega)]
      simp [this]
      try (congr 1; omega)
    · have : ¬ (j - n/8*8 < n % 8) := by omega
      rw [if_neg h']
      simp [this]

/-- Stream bit `j` of the big-endian form. -/
theorem beBits_getElem? {w : Nat} (n : Nat) (v : BitVec w) (j : Nat) :
   (beBits n v)[j]? = if j < n then some (v.getLsbD (n - 1 - j)) else none := by
  unfold beBits
  by_cases h : j < n <;> simp [h]

/-- Bit `i` of the swapped value is bit `i mod 8` of byte `3 − i div 8`. -/
theorem bswap_getLsbD (x : BitVec 32) (i : Nat) : (bswap32 x).getLsbD i = (decide (i < 32) && x.getLsbD (8 * (3 - i/8) + i % 8)) := by
  simp only [bswap32, BitVec.getLsbD_append, byteOf32_getLsbD]
  by_cases h1 : i < 8
  · have : i/8 = 0 := by omega
    have h2 : i % 8 = i := by omega
    have h3 : i < 32 := by omega
    simp [h1, this, h2, h3]
  · by_cases h2 : i < 16
    · have : i/8 = 1 := by omega
      have h2' : i - 8 = i % 8 := by omega
      have h3 : i < 32 := by omega
      have h4 : i % 8 < 8 := by omega
      simp [h1, this, h2', h3, h4]
    · by_cases h3 : i < 24
      · have : i/8 = 2 := by omega
        have h5 : i - 8 - 8 = i % 8 := by omega
        have h6 : i < 32 := by omega
        have h4 : i % 8 < 8 := by omega
        have h7 : ¬ (i - 8 < 8) := by omega
        simp [h1, this, h5, h6, h4, h7]
      · by_cases h6 : i < 32
        · have : i/8 = 3 := by omega
          have h5 : i - 8 - 8 - 8 = i % 8 := by omega
          have h4 : i % 8 < 8 := by omega
          have h7 : ¬ (i - 8 < 8) := by omega
          have h8 : ¬ (i - 8 - 8 < 8) := by omega
          simp [h1, this, h5, h6, h4, h7, h8]
        · have h7 : ¬ (i - 8 < 8) := by omega
          have h8 : ¬ (i - 8 - 8 < 8) := by omega
          have h9 : ¬ (i - 8 - 8 - 8 < 8) := by omega
          simp [h1, h6, h7, h8, h9]

end Sys2Proof.Machine
end

