-- ==== Sys2Proof/Laws/PerInstr.lean ====
section
/-! SUPPORT. Families of statements made instruction by instruction. -/

namespace Sys2Proof.Laws

/-- The opcode number of a row (`30_encoding.md` R62). -/
def opcodeOf : Op → BitVec 4
  | .init => 0x1#4
  | .inith => 0x2#4
  | .reset => 0x3#4
  | .putBe => 0x4#4
  | .putLe => 0x4#4
  | .put64Be => 0x5#4
  | .put64Le => 0x5#4
  | .flush => 0x6#4
  | .wrb => 0x7#4
  | .pos => 0x8#4
  | .rem => 0x9#4
  | .tail => 0xA#4

/-- The endian selector of a row: 1 in the two little-endian ones (`30_encoding.md` R61). -/
def selectorOf : Op → BitVec 1
  | .putLe => 1#1
  | .put64Le => 1#1
  | .init => 0#1
  | .inith => 0#1
  | .reset => 0#1
  | .putBe => 0#1
  | .put64Be => 0#1
  | .flush => 0#1
  | .wrb => 0#1
  | .pos => 0#1
  | .rem => 0#1
  | .tail => 0#1

/-- The word of an instruction carries its row's opcode and selector, and `Z = 0` (`30_encoding.md` R61, R62). -/
def EncodeFields.Statement (i : Instr) : Prop :=
  opcField (encode i) = opcodeOf i.op ∧ eField (encode i) = selectorOf i.op ∧ zField (encode i) = 0#3

theorem fields_of_commandWord (o : BitVec 4) (e : BitVec 1) (c : BitVec 8) (d : BitVec 64) :
    opcField (commandWord o e c d) = o ∧ eField (commandWord o e c d) = e ∧ zField (commandWord o e c d) = 0#3 :=
  ⟨(commandWord_fields o e c d).1, (commandWord_fields o e c d).2.1, (commandWord_fields o e c d).2.2.1⟩

theorem EncodeFields.init (n : BitVec 32) : EncodeFields.Statement (.init n) := fields_of_commandWord _ _ _ _
theorem EncodeFields.inith (n hint : BitVec 32) : EncodeFields.Statement (.inith n hint) := fields_of_commandWord _ _ _ _
theorem EncodeFields.reset : EncodeFields.Statement .reset := fields_of_commandWord _ _ _ _
theorem EncodeFields.putBe (n : BitVec 8) (v : BitVec 32) : EncodeFields.Statement (.putBe n v) := fields_of_commandWord _ _ _ _
theorem EncodeFields.putLe (n : BitVec 8) (v : BitVec 32) : EncodeFields.Statement (.putLe n v) := fields_of_commandWord _ _ _ _
theorem EncodeFields.put64Be (n : BitVec 8) (v : BitVec 64) : EncodeFields.Statement (.put64Be n v) := fields_of_commandWord _ _ _ _
theorem EncodeFields.put64Le (n : BitVec 8) (v : BitVec 64) : EncodeFields.Statement (.put64Le n v) := fields_of_commandWord _ _ _ _
theorem EncodeFields.flush : EncodeFields.Statement .flush := fields_of_commandWord _ _ _ _
theorem EncodeFields.wrb (l : BitVec 32) : EncodeFields.Statement (.wrb l) := fields_of_commandWord _ _ _ _
theorem EncodeFields.pos : EncodeFields.Statement .pos := fields_of_commandWord _ _ _ _
theorem EncodeFields.rem : EncodeFields.Statement .rem := fields_of_commandWord _ _ _ _
theorem EncodeFields.tail : EncodeFields.Statement .tail := fields_of_commandWord _ _ _ _

end Sys2Proof.Laws
end

