-- ==== Sys2Proof/Tests/Slice0.lean ====
section
/-! SUPPORT. The author's own tests: words written out from the spec's encodings, ill-formed terms that the check refuses,
one-step vectors of `95_test_vectors.md`, and for every statement with hypotheses a witness that meets them. -/

namespace Sys2Proof.Machine

/-! ### Helpers -/

/-- The next state of an outcome. -/
def after : Host.Outcome State Fault Refusal → State
  | .next t => t
  | .fault f => nomatch f
  | .refused _ => State.reset

/-- A state with the four registers as a vector writes them. -/
def regs (cache : BitVec 64) (fill : BitVec 7) (index len : BitVec 32) : State :=
  { State.reset with cache := cache, fill := fill, index := index, len := len }

/-- What a vector shows of a state: the registers, the write events and the responses. -/
def shown (t : State) : (BitVec 64 × BitVec 7 × BitVec 32 × BitVec 32) × List Host.Cell × List ResponseWord :=
  ((t.cache, t.fill, t.index, t.len), t.dstw, t.rsp)

/-- One step of the block in state `s` with the word `w` and its payload presented. -/
def ran (w : CommandWord) (p : List Byte) (s : State) : State := after (step (State.present w p s))

/-! ### Decoding: words written out field by field from `30_encoding.md` R61 and R62 -/

/-- `INIT 5` (worked encoding of `30_encoding.md` section 4). -/
theorem test_decode_init : decode (0x1#4 ++ 0#1 ++ 0#3 ++ 0#8 ++ 0#32 ++ 5#32) = .ok (.init 5#32) := by decide

/-- `INITH 8, 16` (the same table). -/
theorem test_decode_inith : decode 0x20000000001000000008#80 = .ok (.inith 8#32 16#32) := by decide

/-- `RESET` (R62). -/
theorem test_decode_reset : decode 0x30000000000000000000#80 = .ok .reset := by decide

/-- `PUT.BE 5, 0x15`: `OPC = 4`, `E = 0`, `CNT = 5`, `DATAL = 0x15`. -/
theorem test_decode_putBe : decode (0x4#4 ++ 0#1 ++ 0#3 ++ 5#8 ++ 0#32 ++ 0x15#32) = .ok (.putBe 5#8 0x15#32) := by decide

/-- `PUT.LE 12, 0xABC`: `E = 1`. -/
theorem test_decode_putLe : decode (0x4#4 ++ 1#1 ++ 0#3 ++ 12#8 ++ 0#32 ++ 0xABC#32) = .ok (.putLe 12#8 0xABC#32) := by
  decide

/-- `PUT64.BE 33, 0xFFFFFFFE00000001`. -/
theorem test_decode_put64Be : decode 0x5021FFFFFFFE00000001#80 = .ok (.put64Be 33#8 0xFFFFFFFE00000001#64) := by decide

/-- `PUT64.LE 40, 0xFFFFFF123456789A` (V35). -/
theorem test_decode_put64Le : decode 0x5828FFFFFF123456789A#80 = .ok (.put64Le 40#8 0xFFFFFF123456789A#64) := by decide

/-- `FLUSH`. -/
theorem test_decode_flush : decode 0x60000000000000000000#80 = .ok .flush := by decide

/-- `WRB` of three bytes. -/
theorem test_decode_wrb : decode (0x7#4 ++ 0#1 ++ 0#3 ++ 0#8 ++ 0#32 ++ 3#32) = .ok (.wrb 3#32) := by decide

/-- `POS`. -/
theorem test_decode_pos : decode 0x80000000000000000000#80 = .ok .pos := by decide

/-- `REM`. -/
theorem test_decode_rem : decode 0x90000000000000000000#80 = .ok .rem := by decide

/-- `TAIL`. -/
theorem test_decode_tail : decode 0xA0000000000000000000#80 = .ok .tail := by decide

/-- Reserved words, one for each condition of `30_encoding.md` R68. -/
theorem test_decode_reserved :
    decode 0x00000000000000000000#80 = .error .opcode ∧ decode 0xB0000000000000000000#80 = .error .opcode ∧
    decode 0x61000000000000000000#80 = .error .zField ∧ decode 0x68000000000000000000#80 = .error .endian ∧
    decode 0x60010000000000000000#80 = .error .count ∧ decode 0x40210000000000000000#80 = .error .countRange ∧
    decode 0x58410000000000000000#80 = .error .countRange ∧ decode 0x40010000000100000000#80 = .error .dataHigh ∧
    decode 0x60000000000000000001#80 = .error .data := by decide

/-! ### Ill-formed terms that the check refuses, and the largest counts that it takes (`30_encoding.md` R64) -/

theorem test_wellFormed_putBe_refuses_33 :
    (Instr.putBe 33#8 0#32).wellFormed = false ∧ (Instr.putBe 32#8 0#32).wellFormed = true := by decide
theorem test_wellFormed_putLe_refuses_33 :
    (Instr.putLe 33#8 0#32).wellFormed = false ∧ (Instr.putLe 32#8 0#32).wellFormed = true := by decide
theorem test_wellFormed_put64Be_refuses_65 :
    (Instr.put64Be 65#8 0#64).wellFormed = false ∧ (Instr.put64Be 64#8 0#64).wellFormed = true := by decide
theorem test_wellFormed_put64Le_refuses_65 :
    (Instr.put64Le 65#8 0#64).wellFormed = false ∧ (Instr.put64Le 64#8 0#64).wellFormed = true := by decide

/-! ### One step: vectors of `95_test_vectors.md` -/

/-- V96. -/
theorem test_init_V96 : shown (ran 0x10000000000000000005#80 [] (regs 0x8000000000000000#64 1#7 2#32 2#32)) =
    ((0#64, 0#7, 0#32, 5#32), [], [0#74]) := by decide

/-- V97: the hint is ignored. -/
theorem test_inith_V97 : shown (ran 0x2000FFFFFFFF00000008#80 [] (regs 0x8000000000000000#64 1#7 2#32 2#32)) =
    ((0#64, 0#7, 0#32, 8#32), [], [0#74]) := by decide

/-- V95. -/
theorem test_reset_V95 : shown (ran 0x30000000000000000000#80 [] (regs 0x8000000000000000#64 1#7 2#32 2#32)) =
    ((0#64, 0#7, 0#32, 2#32), [], [0#74]) := by decide

/-- V8: the first drain. -/
theorem test_putBe_V8 : shown (ran 0x40010000000000000001#80 [] (regs 0xDEADBEEF01234567#64 64#7 0#32 8#32)) =
    ((0x0123456780000000#64, 33#7, 4#32, 8#32), [(0, 0xDE#8), (1, 0xAD#8), (2, 0xBE#8), (3, 0xEF#8)], [0#74]) := by decide

/-- V10: the drain is discarded although three bytes would fit. -/
theorem test_putBe_V10 : shown (ran 0x4008000000000000005A#80 [] (regs 0xDEADBEEF01234567#64 64#7 5#32 8#32)) =
    ((0x012345675A000000#64, 40#7, 9#32, 8#32), [], [0#74]) := by decide

/-- V26: a little-endian fragment off the byte boundary. -/
theorem test_putLe_V26 : shown (ran 0x4810000000000000ABCD#80 [] (regs 0xE000000000000000#64 3#7 0#32 8#32)) =
    ((0xF9B5600000000000#64, 19#7, 0#32, 8#32), [], [0#74]) := by decide

/-- V27: the drain before a little-endian insertion, with a count that is no multiple of 8. -/
theorem test_putLe_V27 : shown (ran 0x480C0000000000000ABC#80 [] (regs 0xDEADBEEF01234500#64 56#7 0#32 8#32)) =
    ((0x012345BCA0000000#64, 36#7, 4#32, 8#32), [(0, 0xDE#8), (1, 0xAD#8), (2, 0xBE#8), (3, 0xEF#8)], [0#74]) := by decide

/-- V38. -/
theorem test_put64Be_V38 : shown (ran 0x50400123456789ABCDEF#80 [] (regs 0xF000000000000000#64 4#7 0#32 16#32)) =
    ((0x789ABCDEF0000000#64, 36#7, 4#32, 16#32), [(0, 0xF0#8), (1, 0x12#8), (2, 0x34#8), (3, 0x56#8)], [0#74]) := by decide

/-- V29: the high half is ignored when `n ≤ 32`. -/
theorem test_put64Be_V29 : shown (ran 0x500CFFFFFFFFFFFFFABC#80 [] (regs 0#64 0#7 0#32 16#32)) =
    ((0xABC0000000000000#64, 12#7, 0#32, 16#32), [], [0#74]) := by decide

/-- V39. -/
theorem test_put64Le_V39 : shown (ran 0x58400123456789ABCDEF#80 [] (regs 0xF000000000000000#64 4#7 0#32 16#32)) =
    ((0x9674523010000000#64, 36#7, 4#32, 16#32), [(0, 0xFE#8), (1, 0xFC#8), (2, 0xDA#8), (3, 0xB8#8)], [0#74]) := by decide

/-- V37: a little-endian remainder of 12 bits. -/
theorem test_put64Le_V37 : shown (ran 0x582C00000ABC12345678#80 [] (regs 0#64 0#7 0#32 16#32)) =
    ((0x78563412BCA00000#64, 44#7, 0#32, 16#32), [], [0#74]) := by decide

/-- V52: Underflow after a whole byte. -/
theorem test_flush_V52 : shown (ran 0x60000000000000000000#80 [] (regs 0xABC0000000000000#64 12#7 0#32 4#32)) =
    ((0xC000000000000000#64, 4#7, 1#32, 4#32), [(0, 0xAB#8)], [0x2000000000000000000#74]) := by decide

/-- V54: Overflow is tested before Underflow. -/
theorem test_flush_V54 : shown (ran 0x60000000000000000000#80 [] (regs 0xABCDEF0120000000#64 36#7 0#32 4#32)) =
    ((0x2000000000000000#64, 4#7, 4#32, 4#32), [(0, 0xAB#8), (1, 0xCD#8), (2, 0xEF#8), (3, 0x01#8)],
      [0x1000000000000000000#74]) := by decide

/-- V62: a clipped copy; `INDEX` moves by all three bytes. -/
theorem test_wrb_V62 :
    shown (ran 0x70000000000000000003#80 [0xDE#8, 0xAD#8, 0xBF#8] (regs 0x1100000000000000#64 8#7 0#32 3#32)) =
    ((0#64, 0#7, 4#32, 3#32), [(0, 0x11#8), (1, 0xDE#8), (2, 0xAD#8)], [0x1000000000000000002#74]) := by decide

/-- V63: the flush reports Underflow; the payload is consumed and dropped. -/
theorem test_wrb_V63 :
    shown (ran 0x70000000000000000002#80 [0xDE#8, 0xAD#8] (regs 0x5000000000000000#64 4#7 0#32 4#32)) =
      ((0x5000000000000000#64, 4#7, 0#32, 4#32), [], [0x2000000000000000000#74]) ∧
    (ran 0x70000000000000000002#80 [0xDE#8, 0xAD#8] (regs 0x5000000000000000#64 4#7 0#32 4#32)).pay = [] := by decide

/-- V92: a position beyond `8·LEN`. -/
theorem test_pos_V92 : shown (ran 0x80000000000000000000#80 [] (regs 0xFEDCBA9876543210#64 64#7 8#32 7#32)) =
    ((0xFEDCBA9876543210#64, 64#7, 8#32, 7#32), [], [128#74]) := by decide

/-- V81. -/
theorem test_rem_V81 : shown (ran 0x90000000000000000000#80 [] (regs 0x8000000000000000#64 1#7 0#32 1#32)) =
    ((0x8000000000000000#64, 1#7, 0#32, 1#32), [], [7#74]) := by decide

/-- V86: clamped at zero. -/
theorem test_rem_V86 : (ran 0x90000000000000000000#80 [] (regs 0x8000000000000000#64 1#7 1#32 1#32)).rsp = [0#74] := by
  decide

/-- V88: offset 5 and length 3. -/
theorem test_tail_V88 : shown (ran 0xA0000000000000000000#80 [] (regs 0xABCDE00000000000#64 20#7 3#32 8#32)) =
    ((0xABCDE00000000000#64, 20#7, 3#32, 8#32), [], [0#2 ++ 3#36 ++ 5#36]) := by decide

/-- A reserved word: `(ILLEGAL, 0, 0)` and nothing else, its would-be payload stays (`30_encoding.md` R68). -/
theorem test_illegal_changes_nothing :
    step (State.present 0#80 [0x55#8] (regs 0x8000000000000000#64 1#7 2#32 2#32)) =
      .next { regs 0x8000000000000000#64 1#7 2#32 2#32 with pay := [0x55#8], rsp := [0x3000000000000000000#74] } := rfl

/-! ### Witnesses: concrete states and operands that meet all hypotheses of a statement, clause by clause -/

theorem witness_DecodeOfEncode :
    (Instr.put64Le 64#8 0xFFFFFFFFFFFFFFFF#64).wellFormed = true ∧ (Instr.putBe 32#8 0#32).wellFormed = true := by decide

theorem witness_EncodeOfDecode : decode 0x482000000000FFFFFFFF#80 = .ok (.putLe 32#8 0xFFFFFFFF#32) := by decide

theorem witness_DecodeFollowsOpcodeMap :
    (∃ r ∈ opcodeRows, r.selects 0x40200000000000000000#80 = true) ∧
    ∀ r ∈ opcodeRows, r.selects 0x40210000000000000000#80 = false := by decide

theorem witness_ReservedWordsAnswerIllegal :
    (State.present 0x50410000000000000000#80 [] State.reset).cmd = 0x50410000000000000000#80 :: [] ∧
    ∀ r ∈ opcodeRows, r.selects 0x50410000000000000000#80 = false := by decide

theorem witness_AssemblerEmitsNoReservedWord :
    assemble (.putBe 32 4294967295) = some (0x402000000000FFFFFFFF#80, []) ∧
    assemble (.wrb [0xDE#8, 0xAD#8, 0xBF#8]) = some (0x70000000000000000003#80, [0xDE#8, 0xAD#8, 0xBF#8]) ∧
    assemble (.putBe 33 0) = none := by decide

theorem witness_StepRunsDecodedCommand :
    ((State.present 0x10000000000000000005#80 [] State.reset).cmd = 0x10000000000000000005#80 :: [] ∧
      decode 0x10000000000000000005#80 = .ok (.init 5#32)) ∧
    ((State.present 0#80 [] State.reset).cmd = 0#80 :: [] ∧ decode 0#80 = .error .opcode) ∧
    State.reset.cmd = [] := by decide

/-- A state that has the command `w` and the payload `p` waiting. -/
def waiting (w : CommandWord) (p : List Byte) (s : State) : State := State.present w p s

theorem witness_EachCommandAnsweredOnce :
    ((waiting 0x80000000000000000000#80 [] State.reset).cmd = 0x80000000000000000000#80 :: [] ∧
      step (waiting 0x80000000000000000000#80 [] State.reset) =
        .next (ran 0x80000000000000000000#80 [] State.reset)) ∧
    ((waiting 0x70000000000000000002#80 [1#8] State.reset).cmd = 0x70000000000000000002#80 :: [] ∧
      step (waiting 0x70000000000000000002#80 [1#8] State.reset) =
        .next (waiting 0x70000000000000000002#80 [1#8] State.reset)) := ⟨⟨rfl, rfl⟩, ⟨rfl, rfl⟩⟩

theorem witness_ErrorStatusesHaveTheirSources :
    ((ran 0x60000000000000000000#80 [] (regs 0x8000000000000000#64 1#7 0#32 0#32)).rsp = [] ++ [0x1000000000000000000#74] ∧
      rspStatus 0x1000000000000000000#74 = 1#2) ∧
    ((ran 0x70000000000000000000#80 [] (regs 0x8000000000000000#64 1#7 0#32 1#32)).rsp = [] ++ [0x2000000000000000000#74] ∧
      rspStatus 0x2000000000000000000#74 = 2#2) ∧
    ((ran 0#80 [] State.reset).rsp = [] ++ [0x3000000000000000000#74] ∧ rspStatus 0x3000000000000000000#74 = 3#2) := by
  decide

/-- Unbound, with a full register and an insertion whose drain is discarded. -/
theorem witness_UnboundBlockWritesNowhere :
    (regs 0xDEADBEEF01234567#64 64#7 0#32 0#32).len = 0#32 ∧
    step (waiting 0x4004000000000000000F#80 [] (regs 0xDEADBEEF01234567#64 64#7 0#32 0#32)) =
      .next (ran 0x4004000000000000000F#80 [] (regs 0xDEADBEEF01234567#64 64#7 0#32 0#32)) := ⟨rfl, rfl⟩

theorem witness_LenChangesOnlyAtBinding :
    nextInstr (waiting 0x10000000000000000005#80 [] State.reset) = some (.init 5#32) ∧
    (ran 0x10000000000000000005#80 [] State.reset).len = 5#32 ∧
    nextInstr (waiting 0x20000000001000000008#80 [] State.reset) = some (.inith 8#32 16#32) ∧
    (ran 0x30000000000000000000#80 [] (regs 0#64 0#7 0#32 9#32)).len = 9#32 := by decide

theorem witness_InsertionFitsInRegister_put :
    (isInsertion (.putBe 32#8 7#32) = true ∧ (Instr.putBe 32#8 7#32).wellFormed = true ∧
      LeftJustified (regs 0xFFFFFFFF00000000#64 32#7 0#32 0#32) ∧
      (regs 0xFFFFFFFF00000000#64 32#7 0#32 0#32).fill.toNat + (insertedBits (.putBe 32#8 7#32)).length ≤ 64) ∧
    (isInsertion (.putLe 12#8 0xABC#32) = true ∧ (Instr.putLe 12#8 0xABC#32).wellFormed = true ∧
      LeftJustified (regs 0xFFFFFFFFFFFFF000#64 52#7 0#32 0#32) ∧
      (regs 0xFFFFFFFFFFFFF000#64 52#7 0#32 0#32).fill.toNat + (insertedBits (.putLe 12#8 0xABC#32)).length ≤ 64) := by
  decide

theorem witness_InsertionFitsInRegister_put64 :
    (isInsertion (.put64Be 64#8 7#64) = true ∧ (Instr.put64Be 64#8 7#64).wellFormed = true ∧
      LeftJustified (regs 0#64 0#7 0#32 0#32) ∧
      (regs 0#64 0#7 0#32 0#32).fill.toNat + (insertedBits (.put64Be 64#8 7#64)).length ≤ 64) ∧
    (isInsertion (.put64Le 33#8 7#64) = true ∧ (Instr.put64Le 33#8 7#64).wellFormed = true ∧
      LeftJustified (regs 0xFFFFFFFE00000000#64 31#7 0#32 0#32) ∧
      (regs 0xFFFFFFFE00000000#64 31#7 0#32 0#32).fill.toNat + (insertedBits (.put64Le 33#8 7#64)).length ≤ 64) := by
  decide

/-- Both branches: four bytes that just fit (`INDEX + 4 = LEN`), and one byte too few; and the last `INDEX` inside the
envelope. -/
theorem witness_PutDrainsFourBytes :
    (32 ≤ 32 ∧ (regs 0xDEADBEEF01234567#64 64#7 4#32 8#32).fill.toNat ≤ 64 ∧
      LeftJustified (regs 0xDEADBEEF01234567#64 64#7 4#32 8#32) ∧ 64 < 64 + (32#8).toNat ∧
      (regs 0xDEADBEEF01234567#64 64#7 4#32 8#32).index.toNat + 4 ≤ (8#32).toNat) ∧
    (LeftJustified (regs 0xFFFFFFFF80000000#64 33#7 5#32 8#32) ∧ 64 < (33#7).toNat + (32#8).toNat ∧
      ¬ (5#32).toNat + 4 ≤ (8#32).toNat) ∧
    (4294967291#32).toNat + 4 < 4294967296 := by decide

theorem witness_PutBeyondEnvelopeCompletes :
    (regs 0xDEADBEEF01234567#64 64#7 4294967292#32 8#32).fill.toNat ≤ 64 ∧
    LeftJustified (regs 0xDEADBEEF01234567#64 64#7 4294967292#32 8#32) ∧
    64 < (regs 0xDEADBEEF01234567#64 64#7 4294967292#32 8#32).fill.toNat + (1#8).toNat ∧
    4294967296 ≤ (regs 0xDEADBEEF01234567#64 64#7 4294967292#32 8#32).index.toNat + 4 := by decide

theorem witness_PutLeIsPutBeRearranged : (32#8).toNat ≤ 32 := by decide

theorem witness_LittleEndianFormsAgree : (32 : Nat) ≤ 32 ∧ le32 12 0xFFFFFABC#32 = 0xBCA#32 := by decide

theorem witness_PutLeOfAtMostOneByte : (8#8).toNat ≤ 8 := by decide

theorem witness_PutLeComposes :
    (31#8).toNat ≤ 32 ∧ (regs 0xDEADBEEF01234567#64 64#7 0#32 8#32).fill.toNat ≤ 64 ∧
    (24#8).toNat = 8 * ((31#8).toNat / 8) ∧ (7#8).toNat = (31#8).toNat % 8 := by decide

theorem witness_Put64IsTwoInsertions :
    (32 < (33#8).toNat ∧ (33#8).toNat ≤ 64 ∧ (1#8).toNat = (33#8).toNat - 32) ∧
    (32 < (64#8).toNat ∧ (64#8).toNat ≤ 64 ∧ (32#8).toNat = (64#8).toNat - 32) := by decide

theorem witness_Put64OfAtMost32IsPut : (32#8).toNat ≤ 32 := by decide

theorem witness_InsertionOfNoBits :
    (regs 0xFFFFFFFFFFFFFFFF#64 64#7 0#32 8#32).fill.toNat ≤ 64 ∧ Instr.put64Le 0#8 5#64 = .put64Le 0#8 5#64 := by decide

theorem witness_HighValueBitsIgnored :
    (∀ j, j < (12#8).toNat → (0xABC#32).getLsbD j = (0xFFFFFABC#32).getLsbD j) ∧
    ∀ j, j < (40#8).toNat → (0x123456789A#64).getLsbD j = (0xFFFFFF123456789A#64).getLsbD j := by decide

/-- V10: `INDEX + 4 = 9` and `LEN = 8`. -/
theorem witness_DiscardedDrainIsTrueOverflow :
    (8#8).toNat ≤ 32 ∧ (64#7).toNat ≤ 64 ∧ 64 < (64#7).toNat + (8#8).toNat ∧ (8#32).toNat < (5#32).toNat + 4 ∧
    (5#32).toNat + 4 < 4294967296 := by decide

/-- V51, V52, V54 and V57: one state for each row of the table. -/
theorem witness_FlushStatusTable :
    (LeftJustified (regs 0xAB00000000000000#64 8#7 0#32 4#32) ∧
      ceil8 (position (regs 0xAB00000000000000#64 8#7 0#32 4#32)) ≤ 4 ∧
      position (regs 0xAB00000000000000#64 8#7 0#32 4#32) % 8 = 0) ∧
    (LeftJustified (regs 0xABC0000000000000#64 12#7 0#32 4#32) ∧
      ceil8 (position (regs 0xABC0000000000000#64 12#7 0#32 4#32)) ≤ 4 ∧
      position (regs 0xABC0000000000000#64 12#7 0#32 4#32) % 8 ≠ 0) ∧
    (LeftJustified (regs 0xABCDEF0120000000#64 36#7 0#32 4#32) ∧
      4 < ceil8 (position (regs 0xABCDEF0120000000#64 36#7 0#32 4#32))) ∧
    (LeftJustified (regs 0#64 0#7 6#32 4#32) ∧ (4#32).toNat < (6#32).toNat) := by decide

/-- V52, then 4 bits of padding. -/
theorem witness_PaddingRecoversFromUnderflow :
    exec .flush (regs 0xABC0000000000000#64 12#7 0#32 4#32) =
      .next (after (exec .flush (regs 0xABC0000000000000#64 12#7 0#32 4#32))) ∧
    (after (exec .flush (regs 0xABC0000000000000#64 12#7 0#32 4#32))).rsp = [] ++ [0x2000000000000000000#74] ∧
    (4#8).toNat = 8 - (after (exec .flush (regs 0xABC0000000000000#64 12#7 0#32 4#32))).fill.toNat :=
  ⟨rfl, by decide, by decide⟩

/-- A copy that fits exactly, and one that is truncated (V61, V62). -/
theorem witness_WrbCopiesPayload :
    (LeftJustified (regs 0x1100000000000000#64 8#7 0#32 4#32) ∧ (3#32).toNat ≤ [0xDE#8, 0xAD#8, 0xBF#8].length ∧
      FlushSucceeds (regs 0x1100000000000000#64 8#7 0#32 4#32) ∧
      position (regs 0x1100000000000000#64 8#7 0#32 4#32) / 8 + (3#32).toNat ≤ 4) ∧
    (LeftJustified (regs 0x1100000000000000#64 8#7 0#32 3#32) ∧
      FlushSucceeds (regs 0x1100000000000000#64 8#7 0#32 3#32) ∧
      3 < position (regs 0x1100000000000000#64 8#7 0#32 3#32) / 8 + (3#32).toNat) := by decide

theorem witness_WrbBeyondEnvelopeCompletes :
    (regs 0#64 0#7 4294967295#32 4294967295#32).fill.toNat ≤ 64 ∧
    LeftJustified (regs 0#64 0#7 4294967295#32 4294967295#32) ∧ (1#32).toNat ≤ [0x99#8].length ∧ FlushSucceeds (regs 0#64 0#7 4294967295#32 4294967295#32) ∧
    4294967296 ≤ position (regs 0#64 0#7 4294967295#32 4294967295#32) / 8 + (1#32).toNat := by decide

/-- V63 and V66. -/
theorem witness_WrbPropagatesFlushError :
    (2#32).toNat ≤ [0xDE#8, 0xAD#8].length ∧ ¬ FlushSucceeds (regs 0x5000000000000000#64 4#7 0#32 4#32) ∧
    ¬ FlushSucceeds (regs 0x1122334455000000#64 40#7 0#32 4#32) := by decide

theorem witness_WrbWaitsForItsPayload : [0x99#8].length < (2#32).toNat := by decide

/-- A state that holds the stream `1010 0101 101`: one byte delivered, three bits pending. -/
def holding : State := { regs 0xA000000000000000#64 3#7 1#32 4#32 with dst := [(0, 0xA5#8)] }

/-- The stream of `holding`. -/
def heldStream : List Bool := [true, false, true, false, false, true, false, true, true, false, true]

theorem holding_holds : StreamHolds heldStream holding := by
  refine ⟨by decide, by decide, fun _ j hj => ?_⟩
  obtain rfl : j = 0 := Nat.lt_one_iff.1 hj
  exact ⟨0xA5#8, by decide, by decide⟩

theorem holding_meets_invariant : MachineInv holding := by decide

theorem witness_StepKeepsInvariant :
    MachineInv (waiting 0x48200000000089ABCDEF#80 [] holding) ∧
    step (waiting 0x48200000000089ABCDEF#80 [] holding) = .next (ran 0x48200000000089ABCDEF#80 [] holding) :=
  ⟨by decide, rfl⟩

theorem witness_HostKeepsInvariant : MachineInv holding := holding_meets_invariant

/-- A `WRB` that writes three bytes. -/
theorem witness_WritesAreEventsInBounds :
    step (waiting 0x70000000000000000003#80 [1#8, 2#8, 3#8] (regs 0#64 0#7 0#32 4#32)) =
      .next (ran 0x70000000000000000003#80 [1#8, 2#8, 3#8] (regs 0#64 0#7 0#32 4#32)) := rfl

/-- The largest `INDEX` with a full register (`95_test_vectors.md` section 9): a query, a `FLUSH`, a `RESET` and an insertion
of no bits are inside the envelope there, and so is an insertion that drains up to the last `INDEX`. -/
theorem witness_InEnvelope_at_largest_index :
    InEnvelope .pos (regs 0xFFFFFFFFFFFFFFFF#64 64#7 4294967295#32 4294967295#32) ∧
    InEnvelope .flush (regs 0xFFFFFFFFFFFFFFFF#64 64#7 4294967295#32 4294967295#32) ∧
    InEnvelope .reset (regs 0xFFFFFFFFFFFFFFFF#64 64#7 4294967295#32 4294967295#32) ∧
    InEnvelope (.putBe 0#8 0#32) (regs 0xFFFFFFFFFFFFFFFF#64 64#7 4294967295#32 4294967295#32) ∧
    InEnvelope (.put64Le 64#8 0#64) (regs 0xFFFFFFFFFFFFFFFF#64 64#7 4294967287#32 4294967295#32) ∧
    ¬ InEnvelope (.put64Le 64#8 0#64) (regs 0xFFFFFFFFFFFFFFFF#64 64#7 4294967288#32 4294967295#32) := by decide

/-- Outside and at a new stream: a `FLUSH` and a `RESET`. -/
theorem witness_IndexOnlyIncreases :
    (holding.fill.toNat ≤ 64 ∧ InEnvelope .flush holding ∧ exec .flush holding = .next (after (exec .flush holding)) ∧
      startsStream .flush = false) ∧
    (InEnvelope .reset holding ∧ exec .reset holding = .next (after (exec .reset holding)) ∧
      startsStream .reset = true) := ⟨⟨by decide, by decide, rfl, rfl⟩, ⟨by decide, rfl, rfl⟩⟩

/-- An overflowed state, with each of the three commands the statement speaks of. -/
theorem witness_OverflowPersists :
    Overflowed (regs 0x8000000000000000#64 1#7 2#32 2#32) ∧
    (InEnvelope (.putBe 1#8 1#32) (regs 0x8000000000000000#64 1#7 2#32 2#32) ∧ startsStream (.putBe 1#8 1#32) = false) ∧
    InEnvelope .flush (regs 0x8000000000000000#64 1#7 2#32 2#32) ∧
    (InEnvelope (.wrb 1#32) (waiting 0x70000000000000000001#80 [7#8] (regs 0x8000000000000000#64 1#7 2#32 2#32)) ∧
      (1#32).toNat ≤ (waiting 0x70000000000000000001#80 [7#8] (regs 0x8000000000000000#64 1#7 2#32 2#32)).pay.length) := by
  decide

theorem witness_StepCarriesTheStream :
    MachineInv (waiting 0x40050000000000000015#80 [] holding) ∧
    StreamHolds heldStream (waiting 0x40050000000000000015#80 [] holding) ∧
    nextInstr (waiting 0x40050000000000000015#80 [] holding) = some (.putBe 5#8 0x15#32) ∧
    InEnvelope (.putBe 5#8 0x15#32) (waiting 0x40050000000000000015#80 [] holding) ∧
    step (waiting 0x40050000000000000015#80 [] holding) = .next (ran 0x40050000000000000015#80 [] holding) :=
  ⟨by decide, holding_holds, by decide, by decide, rfl⟩

/-- `holding` with five more bits holds two whole bytes. -/
theorem witness_OkFlushDeliversTheStream :
    MachineInv (ran 0x40050000000000000015#80 [] holding) ∧
    StreamHolds (heldStream ++ [true, false, true, false, true]) (ran 0x40050000000000000015#80 [] holding) ∧
    exec .flush (ran 0x40050000000000000015#80 [] holding) =
      .next (after (exec .flush (ran 0x40050000000000000015#80 [] holding))) ∧
    (after (exec .flush (ran 0x40050000000000000015#80 [] holding))).rsp = [0#74] ++ [0#74] := by
  refine ⟨by decide, ⟨by decide, by decide, fun _ j hj => ?_⟩, rfl, by decide⟩
  obtain rfl : j = 0 := Nat.lt_one_iff.1 hj
  exact ⟨0xA5#8, by decide, by decide⟩

end Sys2Proof.Machine
end

/-! PROOFS. What a step does to the destination (`20_memory.md`): its writes are the events it records, all inside
`[0, LEN)`, and what the destination held before has no part in it. -/

namespace Sys2Proof.Machine

/-! ### Every write is an event inside `[0, LEN)` -/

/-- From `s` to `t` the destination changed by the recorded write events alone, each below the `LEN` of `s`
(`20_memory.md` R40, R45). -/
def WritesInBounds (s t : State) : Prop :=
  ∃ ev, t.dstw = s.dstw ++ ev ∧ t.dst = Memory.applyEvents s.dst ev ∧ ∀ c ∈ ev, c.1 < s.len.toNat

theorem writesInBounds_of_unchanged {s t : State} (hdst : t.dst = s.dst) (hdstw : t.dstw = s.dstw) :
    WritesInBounds s t :=
  ⟨[], by simpa using hdstw, hdst, by simp⟩

/-- Answering after a drain adds no write. -/
theorem Drains.writesInBounds_respond {s u : State} (h : Drains s u) (st : Status) (v0 v1 : BitVec 36) :
    WritesInBounds s (respond st v0 v1 u) := by
  obtain ⟨-, -, -, -, hwrites⟩ := h
  exact hwrites

/-- The payload taken off `PAY` before the flush is no part of the destination. -/
theorem writesInBounds_writePayload (p : List Byte) (l : Nat) (s : State) :
    WritesInBounds s (writePayload p (consumePayload l s)) := by
  obtain ⟨u, _, st, v0, hu, ht, -⟩ := writePayload_drains p (consumePayload l s)
  rw [ht]
  exact hu.writesInBounds_respond st v0 0#36

theorem exec_writesInBounds {i : Instr} {s t : State} (h : exec i s = .next t) : WritesInBounds s t := by
  rcases exec_cases i s t h with
    ⟨rfl, -⟩ | ⟨n, -, rfl⟩ | ⟨-, rfl⟩ | ⟨-, rfl⟩ | ⟨u, -, hu, rfl⟩ | ⟨-, rfl⟩ | ⟨l, -, rfl⟩ | ⟨v0, v1, -, rfl⟩
  · exact writesInBounds_of_unchanged rfl rfl
  · exact writesInBounds_of_unchanged rfl rfl
  · exact writesInBounds_of_unchanged rfl rfl
  · exact writesInBounds_of_unchanged rfl rfl
  · exact hu.writesInBounds_respond _ _ _
  · exact (drains_flush s).writesInBounds_respond _ _ _
  · exact writesInBounds_writePayload _ _ s
  · exact writesInBounds_of_unchanged rfl rfl

/-- Settles O43, by the cases of a step: idle and reserved words write nothing, and a command writes as
`exec_writesInBounds` says. -/
theorem writesAreEventsInBounds : Obligations.WritesAreEventsInBounds := by
  intro s t h
  rcases step_cases s t h with ⟨-, rfl⟩ | ⟨_, _, -, ⟨_, -, rfl⟩ | ⟨i, -, hexec⟩⟩
  · exact writesInBounds_of_unchanged rfl rfl
  · exact writesInBounds_of_unchanged rfl rfl
  · exact exec_writesInBounds hexec

/-! ### The destination is never read

An operation that does not read `DST` commutes with putting other contents there, up to write events that do not
depend on those contents. This property composes, and each named operation has it. -/

/-- `s` over other contents of the destination. -/
def withDst (m : Memory) (s : State) : State := { s with dst := m }

/-- `f` overwrites whatever the destination holds by the same events, and nothing else in its result depends on what
was there (`20_memory.md` R32). -/
def IgnoresDst (f : State → State) : Prop :=
  ∀ s, ∃ ev, ∀ m, f (withDst m s) = withDst (Memory.applyEvents m ev) (f s)

/-- `e` always answers with a next state, and its effect ignores the destination. -/
def CompletesIgnoringDst (e : State → Host.Outcome State Fault Refusal) : Prop :=
  ∃ f, IgnoresDst f ∧ ∀ s, e s = .next (f s)

/-- A value computed from the state without its destination. -/
def DstFree {α : Type} (g : State → α) : Prop := ∀ (s : State) (m : Memory), g (withDst m s) = g s

theorem IgnoresDst.of_untouched {f : State → State}
    (h : ∀ (s : State) (m : Memory), f (withDst m s) = withDst m (f s)) : IgnoresDst f :=
  fun s => ⟨[], h s⟩

theorem IgnoresDst.comp {g f : State → State} (hg : IgnoresDst g) (hf : IgnoresDst f) :
    IgnoresDst fun s => g (f s) := by
  intro s
  obtain ⟨evf, hf⟩ := hf s
  obtain ⟨evg, hg⟩ := hg (f s)
  exact ⟨evf ++ evg, fun m => by dsimp only; rw [hf, hg, Memory.applyEvents_append]⟩

theorem IgnoresDst.ite {c : State → Prop} [DecidablePred c] {f g : State → State} (hc : DstFree c)
    (hf : IgnoresDst f) (hg : IgnoresDst g) : IgnoresDst fun s => if c s then f s else g s := by
  intro s
  by_cases h : c s
  · obtain ⟨ev, hev⟩ := hf s
    exact ⟨ev, fun m => by simp only [hc s m, h, if_true, hev]⟩
  · obtain ⟨ev, hev⟩ := hg s
    exact ⟨ev, fun m => by simp only [hc s m, h, if_false, hev]⟩

theorem IgnoresDst.respond {f : State → State} {st : State → Status} {v0 v1 : State → BitVec 36}
    (hf : IgnoresDst f) (hst : DstFree st) (hv0 : DstFree v0) (hv1 : DstFree v1) :
    IgnoresDst fun s => Machine.respond (st s) (v0 s) (v1 s) (f s) := by
  intro s
  obtain ⟨ev, hev⟩ := hf s
  exact ⟨ev, fun m => by dsimp only; rw [hev, hst s m, hv0 s m, hv1 s m]; rfl⟩

theorem IgnoresDst.respond_ok {f : State → State} (hf : IgnoresDst f) :
    IgnoresDst fun s => Machine.respond .ok 0#36 0#36 (f s) :=
  hf.respond (fun _ _ => rfl) (fun _ _ => rfl) (fun _ _ => rfl)

theorem ignoresDst_id : IgnoresDst fun s => s := .of_untouched fun _ _ => rfl

theorem advanceIndex_withDst (d : Nat) (m : Memory) (s : State) :
    advanceIndex d (withDst m s) = withDst m (advanceIndex d s) := by
  unfold advanceIndex withDst
  dsimp only
  split <;> rfl

theorem drain32_ignoresDst : IgnoresDst drain32 :=
  fun s => ⟨drain32Events s, fun m => by rw [drain32_eq, drain32_eq, advanceIndex_withDst]; rfl⟩

theorem insertBe_ignoresDst (n : Nat) (v : BitVec 32) : IgnoresDst (insertBe n v) :=
  have hdrainFor : IgnoresDst (drainFor n) := .ite (fun _ _ => rfl) drain32_ignoresDst ignoresDst_id
  .comp (g := appendBits n (v &&& mask 32 n)) (.of_untouched fun _ _ => rfl) hdrainFor

theorem insertLe_ignoresDst (n : Nat) (v : BitVec 32) : IgnoresDst (insertLe n v) :=
  insertBe_ignoresDst n (le32 n v)

theorem insert64Be_ignoresDst (n : Nat) (v : BitVec 64) : IgnoresDst (insert64Be n v) :=
  .ite (fun _ _ => rfl) (.comp (insertBe_ignoresDst _ _) (insertBe_ignoresDst _ _)) (insertBe_ignoresDst _ _)

theorem insert64Le_ignoresDst (n : Nat) (v : BitVec 64) : IgnoresDst (insert64Le n v) :=
  .ite (fun _ _ => rfl) (.comp (insertLe_ignoresDst _ _) (insertLe_ignoresDst _ _)) (insertLe_ignoresDst _ _)

theorem flushDrain_ignoresDst : IgnoresDst flushDrain :=
  fun s => ⟨eventsAt s.index.toNat (topBytes (flushCount s) s.cache), fun m => by
    rw [flushDrain_eq, flushDrain_eq]; rfl⟩

theorem copyPayload_ignoresDst (p : List Byte) : IgnoresDst (copyPayload p) :=
  fun s => ⟨eventsAt s.index.toNat (p.take (bytesThatFit p.length s)), fun m => by
    rw [copyPayload_eq, copyPayload_eq, advanceIndex_withDst]; rfl⟩

/-- What `WRB` does after its flush (`45_write_bytes.md` R105, steps 2 and 3). -/
def copyOrPropagate (p : List Byte) (u : State) : State :=
  if flushStatus u = .ok then
    respond (copyStatus (bytesThatFit p.length u) p.length) (BitVec.ofNat 36 (bytesThatFit p.length u)) 0#36
      (copyPayload p u)
  else respond (flushStatus u) 0#36 0#36 u

theorem writePayload_eq (p : List Byte) (s : State) : writePayload p s = copyOrPropagate p (flushDrain s) := by
  unfold copyOrPropagate
  split
  · exact writePayload_of_ok ‹_›
  · exact writePayload_of_error ‹_›

theorem copyOrPropagate_ignoresDst (p : List Byte) : IgnoresDst (copyOrPropagate p) :=
  .ite (fun _ _ => rfl)
    ((copyPayload_ignoresDst p).respond (fun _ _ => rfl) (fun _ _ => rfl) (fun _ _ => rfl))
    (ignoresDst_id.respond (fun _ _ => rfl) (fun _ _ => rfl) (fun _ _ => rfl))

theorem writePayload_ignoresDst (p : List Byte) : IgnoresDst (writePayload p) := by
  rw [funext (writePayload_eq p)]
  exact (copyOrPropagate_ignoresDst p).comp flushDrain_ignoresDst

theorem CompletesIgnoringDst.next {f : State → State} (hf : IgnoresDst f) :
    CompletesIgnoringDst fun s => .next (f s) :=
  ⟨f, hf, fun _ => rfl⟩

theorem CompletesIgnoringDst.ite {c : State → Prop} [DecidablePred c]
    {e e' : State → Host.Outcome State Fault Refusal} (hc : DstFree c)
    (he : CompletesIgnoringDst e) (he' : CompletesIgnoringDst e') :
    CompletesIgnoringDst fun s => if c s then e s else e' s := by
  obtain ⟨f, hf, hef⟩ := he
  obtain ⟨g, hg, heg⟩ := he'
  exact ⟨_, .ite hc hf hg, fun s => by simp only [hef, heg, apply_ite Host.Outcome.next]⟩

/-- The four insertions: an answer OK in the range of the count, and ILLEGAL outside it (log 8). -/
theorem CompletesIgnoringDst.insertion {inRange : Prop} [Decidable inRange] {f : State → State}
    (hf : IgnoresDst f) :
    CompletesIgnoringDst fun s => if inRange then .next (respond .ok 0#36 0#36 (f s)) else .next (illegal s) :=
  .ite (fun _ _ => rfl) (.next hf.respond_ok) (.next (.of_untouched fun _ _ => rfl))

theorem exec_completesIgnoringDst (i : Instr) : CompletesIgnoringDst (exec i) := by
  cases i with
  | init n => exact .next (.of_untouched fun _ _ => rfl)
  | inith n hint => exact .next (.of_untouched fun _ _ => rfl)
  | reset => exact .next (.of_untouched fun _ _ => rfl)
  | putBe n v => exact .insertion (insertBe_ignoresDst n.toNat v)
  | putLe n v => exact .insertion (insertLe_ignoresDst n.toNat v)
  | put64Be n v => exact .insertion (insert64Be_ignoresDst n.toNat v)
  | put64Le n v => exact .insertion (insert64Le_ignoresDst n.toNat v)
  | flush =>
    have hanswer : IgnoresDst fun u => respond (flushStatus u) 0#36 0#36 u :=
      ignoresDst_id.respond (fun _ _ => rfl) (fun _ _ => rfl) (fun _ _ => rfl)
    exact .next (hanswer.comp flushDrain_ignoresDst)
  | wrb l =>
    have hwrite : IgnoresDst fun s => writePayload (s.pay.take l.toNat) (consumePayload l.toNat s) :=
      fun s => writePayload_ignoresDst (s.pay.take l.toNat) (consumePayload l.toNat s)
    exact .ite (fun _ _ => rfl) (.next ignoresDst_id) (.next hwrite)
  | pos => exact .next (.of_untouched fun _ _ => rfl)
  | rem => exact .next (.of_untouched fun _ _ => rfl)
  | tail => exact .next (.of_untouched fun _ _ => rfl)

/-- Settles O44, from `exec_completesIgnoringDst`: its events serve for the other contents `m` and, with `m` the
state's own destination, for the state itself. -/
theorem destinationIsNeverRead : Obligations.DestinationIsNeverRead := by
  intro i s m
  obtain ⟨f, hf, hexec⟩ := exec_completesIgnoringDst i
  obtain ⟨ev, hev⟩ := hf s
  have hown : f s = withDst (Memory.applyEvents s.dst ev) (f s) := hev s.dst
  refine ⟨f s, f (withDst m s), ev, hexec s, hexec _, ?_, congrArg State.dst hown, congrArg State.dst (hev m)⟩
  rw [hev m]
  rfl

end Sys2Proof.Machine

/-! PROOFS. Which words the opcode map takes (`30_encoding.md` R62, R68, R74): a row selects a word exactly when the
word's fields fit the row's format, and those are exactly the words that decode. -/

namespace Sys2Proof

open Laws (opcodeOf selectorOf)

/-! ### The rows of the map, field by field -/

/-- What the format of an operation asks of the operand fields of `w`: the zero fields of R61, the counts of R64. -/
def OperandsFit (w : CommandWord) : Op → Prop
  | .init | .wrb => cntField w = 0#8 ∧ datahField w = 0#32
  | .inith => cntField w = 0#8
  | .reset | .flush | .pos | .rem | .tail => cntField w = 0#8 ∧ dataField w = 0#64
  | .putBe | .putLe => (cntField w).toNat ≤ Config.putMax ∧ datahField w = 0#32
  | .put64Be | .put64Le => (cntField w).toNat ≤ Config.put64Max

/-- The fields of `w` are those of a word of the operation `op` (`30_encoding.md` R61 to R64). -/
def FitsRow (w : CommandWord) (op : Op) : Prop :=
  zField w = 0#3 ∧ opcField w = opcodeOf op ∧ eField w = selectorOf op ∧ OperandsFit w op

/-- The instruction of the row `op` with the operands that stand in the fields of `w` (`30_encoding.md` R63). -/
def rowInstr (w : CommandWord) : Op → Instr
  | .init => .init (datalField w)
  | .inith => .inith (datalField w) (datahField w)
  | .reset => .reset
  | .putBe => .putBe (cntField w) (datalField w)
  | .putLe => .putLe (cntField w) (datalField w)
  | .put64Be => .put64Be (cntField w) (dataField w)
  | .put64Le => .put64Le (cntField w) (dataField w)
  | .flush => .flush
  | .wrb => .wrb (datalField w)
  | .pos => .pos
  | .rem => .rem
  | .tail => .tail

@[simp] theorem rowInstr_op (w : CommandWord) (op : Op) : (rowInstr w op).op = op := by
  cases op <;> rfl

theorem cntField_le_255 (w : CommandWord) : (cntField w).toNat ≤ 255 := Nat.le_of_lt_succ (cntField w).isLt

/-- A row selects by the opcode, the selector, `Z = 0` and what its mask and its constraint say of `CNT` and `DATA`. -/
theorem selects_iff_operands (w : CommandWord) (op : Op) (o : BitVec 4) (e : BitVec 1) (mc : BitVec 8) (md : BitVec 64)
    (k : Nat) :
    OpcodeRow.selects ⟨op, o ++ e ++ 0#3 ++ 0#8 ++ 0#64, 15#4 ++ 1#1 ++ 7#3 ++ mc ++ md, k⟩ w = true ↔
      zField w = 0#3 ∧ opcField w = o ∧ eField w = e ∧
        cntField w &&& mc = 0#8 ∧ (cntField w).toNat ≤ k ∧ dataField w &&& md = 0#64 := by
  rw [selects_iff, and_allOnes_of_eq _ 15#4 rfl, and_allOnes_of_eq _ 1#1 rfl, and_allOnes_of_eq _ 7#3 rfl]
  tauto

/-- A row of the map selects a word exactly when the word's fields fit the row. -/
theorem selects_iff_fitsRow (w : CommandWord) : ∀ r ∈ opcodeRows, r.selects w = true ↔ FitsRow w r.op := by
  have hcnt : cntField w &&& 255#8 = cntField w := and_allOnes_of_eq _ _ rfl
  have hdata : dataField w &&& 0xFFFFFFFFFFFFFFFF#64 = dataField w := and_allOnes_of_eq _ _ rfl
  rw [opcodeRows_by_fields]
  repeat rw [List.forall_mem_cons]
  simp only [selects_iff_operands, hcnt, hdata, dataField_high_zero, FitsRow, OperandsFit, opcodeOf, selectorOf,
    cntField_le_255, BitVec.and_zero, true_and, and_true, List.not_mem_nil, false_imp_iff, implies_true]

/-- Every operation has a row in the map. -/
theorem row_mem_of_op (op : Op) : ∃ r ∈ opcodeRows, r.op = op := by
  cases op <;> decide

/-- No two rows of the map have the same name. -/
theorem opcodeRows_op_inj : ∀ r ∈ opcodeRows, ∀ r' ∈ opcodeRows, r'.op = r.op → r' = r := by decide

/-- No row selects a word exactly when its fields fit no operation. -/
theorem no_row_selects_iff (w : CommandWord) :
    (∀ r ∈ opcodeRows, r.selects w = false) ↔ ∀ op, ¬ FitsRow w op := by
  constructor
  · intro h op hfits
    obtain ⟨r, hr, rfl⟩ := row_mem_of_op op
    exact absurd ((selects_iff_fitsRow w r hr).2 hfits) (by simp [h r hr])
  · intro h r hr
    exact Bool.eq_false_iff.2 fun hsel => h r.op ((selects_iff_fitsRow w r hr).1 hsel)

/-! ### The decoder follows the map -/

/-- How an operation's format reads the fields below the opcode (`30_encoding.md` R61). -/
def decodeOperands (w : CommandWord) : Op → Except Reserved Instr
  | .init => decodeL w .init
  | .inith => decodeLH w .inith
  | .reset => decodeZ w .reset
  | .putBe | .putLe => decodeP32 w
  | .put64Be | .put64Le => decodeP64 w
  | .flush => decodeZ w .flush
  | .wrb => decodeL w .wrb
  | .pos => decodeZ w .pos
  | .rem => decodeZ w .rem
  | .tail => decodeZ w .tail

/-- With `Z = 0` and the opcode of an operation, the decoder is that operation's format. -/
theorem decode_eq_decodeOperands {w : CommandWord} {op : Op} (hz : zField w = 0#3) (ho : opcField w = opcodeOf op) :
    decode w = decodeOperands w op := by
  unfold decode
  rw [if_neg (not_not_intro hz), ho]
  cases op <;> rfl

/-- A word that decodes has `Z = 0` and the opcode of an operation, whose format accepts it. -/
theorem exists_decodeOperands_ok {w : CommandWord} {i : Instr} (h : decode w = .ok i) :
    zField w = 0#3 ∧ ∃ op, opcField w = opcodeOf op ∧ decodeOperands w op = .ok i := by
  obtain ⟨hz, hformat⟩ := decode_ok h
  refine ⟨hz, ?_⟩
  rcases hformat with h | h | h | h | h | h | h | h | h | h
  exacts [⟨.init, h⟩, ⟨.inith, h⟩, ⟨.reset, h⟩, ⟨.putBe, h⟩, ⟨.put64Be, h⟩, ⟨.flush, h⟩, ⟨.wrb, h⟩, ⟨.pos, h⟩,
    ⟨.rem, h⟩, ⟨.tail, h⟩]

/-- A word that fits a row decodes to that row's instruction. -/
theorem decode_of_fitsRow {w : CommandWord} {op : Op} (h : FitsRow w op) : decode w = .ok (rowInstr w op) := by
  obtain ⟨hz, ho, he, hfit⟩ := h
  rw [decode_eq_decodeOperands hz ho]
  cases op
  case reset | flush | pos | rem | tail => exact decodeZ_ok.2 ⟨he, hfit.1, hfit.2, rfl⟩
  case init | wrb => exact decodeL_ok.2 ⟨he, hfit.1, hfit.2, rfl⟩
  case inith => exact decodeLH_ok.2 ⟨he, hfit, rfl⟩
  case putBe => exact decodeP32_ok.2 ⟨hfit.1, hfit.2, .inl ⟨he, rfl⟩⟩
  case putLe => exact decodeP32_ok.2 ⟨hfit.1, hfit.2, .inr ⟨he, rfl⟩⟩
  case put64Be => exact decodeP64_ok.2 ⟨hfit, .inl ⟨he, rfl⟩⟩
  case put64Le => exact decodeP64_ok.2 ⟨hfit, .inr ⟨he, rfl⟩⟩

/-- A word that decodes fits the row of its instruction. -/
theorem fitsRow_of_decode {w : CommandWord} {i : Instr} (h : decode w = .ok i) : FitsRow w i.op := by
  obtain ⟨hz, op, ho, hops⟩ := exists_decodeOperands_ok h
  cases op
  case reset | flush | pos | rem | tail =>
    obtain ⟨he, hcnt, hdata, rfl⟩ := decodeZ_ok.1 hops
    exact ⟨hz, ho, he, hcnt, hdata⟩
  case init | wrb =>
    obtain ⟨he, hcnt, hhigh, rfl⟩ := decodeL_ok.1 hops
    exact ⟨hz, ho, he, hcnt, hhigh⟩
  case inith =>
    obtain ⟨he, hcnt, rfl⟩ := decodeLH_ok.1 hops
    exact ⟨hz, ho, he, hcnt⟩
  case putBe | putLe =>
    obtain ⟨hcnt, hhigh, ⟨he, rfl⟩ | ⟨he, rfl⟩⟩ := decodeP32_ok.1 hops <;> exact ⟨hz, ho, he, hcnt, hhigh⟩
  case put64Be | put64Le =>
    obtain ⟨hcnt, ⟨he, rfl⟩ | ⟨he, rfl⟩⟩ := decodeP64_ok.1 hops <;> exact ⟨hz, ho, he, hcnt⟩

/-- A word fits at most one row, because it decodes to one instruction. -/
theorem fitsRow_unique {w : CommandWord} {op op' : Op} (h : FitsRow w op) (h' : FitsRow w op') : op' = op := by
  have hinstr : rowInstr w op' = rowInstr w op :=
    Except.ok.inj ((decode_of_fitsRow h').symm.trans (decode_of_fitsRow h))
  simpa using congrArg Instr.op hinstr

/-- A word that fits a row is the word of that row's instruction: no bit is dropped (`30_encoding.md` R63). -/
theorem encode_rowInstr {w : CommandWord} {op : Op} (h : FitsRow w op) : encode (rowInstr w op) = w := by
  obtain ⟨hz, ho, he, hfit⟩ := h
  have hfields : w = commandWord (opcodeOf op) (selectorOf op) (cntField w) (dataField w) := by
    conv_lhs => rw [word_eq_fields w, hz, ho, he]
    rfl
  conv_rhs => rw [hfields]
  cases op
  case reset | flush | pos | rem | tail => rw [hfit.1, hfit.2]; rfl
  case init | wrb => rw [dataField_eq_halves, hfit.1, hfit.2]; rfl
  case inith => rw [dataField_eq_halves, hfit]; rfl
  case putBe | putLe => rw [dataField_eq_halves, hfit.2]; rfl
  case put64Be | put64Le => rfl

/-- A word that decodes is the word of its instruction. -/
theorem encode_of_decode {w : CommandWord} {i : Instr} (h : decode w = .ok i) : encode i = w := by
  have hfits := fitsRow_of_decode h
  have hinstr : rowInstr w i.op = i := Except.ok.inj ((decode_of_fitsRow hfits).symm.trans h)
  rw [← encode_rowInstr hfits, hinstr]

/-- A word is reserved exactly when it fits no row. -/
theorem decode_error_iff (w : CommandWord) : (∃ e, decode w = .error e) ↔ ∀ op, ¬ FitsRow w op := by
  constructor
  · rintro ⟨e, he⟩ op hfits
    simp [decode_of_fitsRow hfits] at he
  · intro hnone
    cases hd : decode w with
    | ok i => exact absurd (fitsRow_of_decode hd) (hnone i.op)
    | error e => exact ⟨e, rfl⟩

/-- Settles O3, by what the decoder answers: the row of the instruction is the one row that selects the word, and a
reserved word fits no row. -/
theorem decodeFollowsOpcodeMap : Obligations.DecodeFollowsOpcodeMap := by
  intro w
  cases hd : decode w with
  | ok i =>
    have hfits := fitsRow_of_decode hd
    obtain ⟨r, hr, hop⟩ := row_mem_of_op i.op
    refine .inl ⟨r, hr, (selects_iff_fitsRow w r hr).2 (hop ▸ hfits), ?_, i, rfl, hop.symm, encode_of_decode hd⟩
    intro r' hr' hsel
    have hfits' := (selects_iff_fitsRow w r' hr').1 hsel
    exact opcodeRows_op_inj r hr r' hr' ((fitsRow_unique hfits hfits').trans hop.symm)
  | error e => exact .inr ⟨(no_row_selects_iff w).2 ((decode_error_iff w).1 ⟨e, hd⟩), e, rfl⟩

/-! ### The conditions of a reserved word -/

/-- One of the eight conditions of `30_encoding.md` R68. -/
def ReservedCondition (w : CommandWord) : Prop :=
  (opcField w = 0#4 ∨ 0xB#4 ≤ opcField w) ∨
  zField w ≠ 0#3 ∨
  (eField w = 1#1 ∧ opcField w ≠ 4#4 ∧ opcField w ≠ 5#4) ∨
  (cntField w ≠ 0#8 ∧ opcField w ≠ 4#4 ∧ opcField w ≠ 5#4) ∨
  (32 < (cntField w).toNat ∧ opcField w = 4#4) ∨
  (64 < (cntField w).toNat ∧ opcField w = 5#4) ∨
  (datahField w ≠ 0#32 ∧ (opcField w = 1#4 ∨ opcField w = 4#4 ∨ opcField w = 7#4)) ∨
  (dataField w ≠ 0#64 ∧
    (opcField w = 3#4 ∨ opcField w = 6#4 ∨ opcField w = 8#4 ∨ opcField w = 9#4 ∨ opcField w = 10#4))

/-- Every opcode but 0x0 and 0xB to 0xF is that of an operation. -/
theorem exists_opcodeOf {o : BitVec 4} (hzero : o ≠ 0#4) (hhigh : ¬ 0xB#4 ≤ o) : ∃ op, o = opcodeOf op := by
  have hlisted : ∀ o : BitVec 4, o ≠ 0#4 → ¬ 0xB#4 ≤ o →
      o ∈ [Op.init, .inith, .reset, .putBe, .put64Be, .flush, .wrb, .pos, .rem, .tail].map opcodeOf := by decide
  obtain ⟨op, -, hop⟩ := List.mem_map.1 (hlisted o hzero hhigh)
  exact ⟨op, hop.symm⟩

/-- A word that fits a row meets no condition of R68. -/
theorem FitsRow.not_reservedCondition {w : CommandWord} {op : Op} (h : FitsRow w op) : ¬ ReservedCondition w := by
  obtain ⟨hz, ho, he, hfit⟩ := h
  unfold ReservedCondition
  rw [hz, ho, he]
  cases op
  case reset | flush | pos | rem | tail => simp [opcodeOf, selectorOf, hfit.1, hfit.2]
  case init | wrb => simp [opcodeOf, selectorOf, hfit.1, hfit.2]
  case inith => simp [opcodeOf, selectorOf, show cntField w = 0#8 from hfit]
  case putBe | putLe => simpa [opcodeOf, hfit.2] using hfit.1
  case put64Be | put64Le => simpa [opcodeOf] using show (cntField w).toNat ≤ 64 from hfit

/-- A word that meets no condition of R68 fits the row that its opcode and its selector name. -/
theorem exists_fitsRow_of_not_reservedCondition {w : CommandWord} (h : ¬ ReservedCondition w) :
    ∃ op, FitsRow w op := by
  unfold ReservedCondition at h
  simp only [not_or] at h
  obtain ⟨⟨hzero, htop⟩, hz, hsel, hcnt, hput, hput64, hhigh, hdata⟩ := h
  obtain ⟨op, ho⟩ := exists_opcodeOf hzero htop
  rw [ho] at hsel hcnt hput hput64 hhigh hdata
  have hz := not_not.1 hz
  have hsel (h4 : opcodeOf op ≠ 4#4) (h5 : opcodeOf op ≠ 5#4) : eField w = 0#1 :=
    (eField_cases w).resolve_right fun he => hsel ⟨he, h4, h5⟩
  have hcnt (h4 : opcodeOf op ≠ 4#4) (h5 : opcodeOf op ≠ 5#4) : cntField w = 0#8 :=
    by_contra fun hne => hcnt ⟨hne, h4, h5⟩
  have hhigh (ho : opcodeOf op = 1#4 ∨ opcodeOf op = 4#4 ∨ opcodeOf op = 7#4) : datahField w = 0#32 :=
    by_contra fun hne => hhigh ⟨hne, ho⟩
  cases op
  case reset | flush | pos | rem | tail =>
    have hdata : dataField w = 0#64 := by_contra fun hne => hdata ⟨hne, by decide⟩
    exact ⟨_, hz, ho, hsel (by decide) (by decide), hcnt (by decide) (by decide), hdata⟩
  case init | wrb => exact ⟨_, hz, ho, hsel (by decide) (by decide), hcnt (by decide) (by decide), hhigh (by decide)⟩
  case inith => exact ⟨.inith, hz, ho, hsel (by decide) (by decide), hcnt (by decide) (by decide)⟩
  case putBe | putLe =>
    have hcount : (cntField w).toNat ≤ 32 := not_lt.1 fun hlt => hput ⟨hlt, rfl⟩
    rcases eField_cases w with he | he
    · exact ⟨.putBe, hz, ho, he, hcount, hhigh (by decide)⟩
    · exact ⟨.putLe, hz, ho, he, hcount, hhigh (by decide)⟩
  case put64Be | put64Le =>
    have hcount : (cntField w).toNat ≤ 64 := not_lt.1 fun hlt => hput64 ⟨hlt, rfl⟩
    rcases eField_cases w with he | he
    · exact ⟨.put64Be, hz, ho, he, hcount⟩
    · exact ⟨.put64Le, hz, ho, he, hcount⟩

/-- No row selects a word exactly when a condition of R68 holds. -/
theorem no_row_selects_iff_reservedCondition (w : CommandWord) :
    (∀ r ∈ opcodeRows, r.selects w = false) ↔ ReservedCondition w := by
  rw [no_row_selects_iff]
  constructor
  · intro hnone
    by_contra hcond
    obtain ⟨op, hfits⟩ := exists_fitsRow_of_not_reservedCondition hcond
    exact hnone op hfits
  · exact fun hcond op hfits => hfits.not_reservedCondition hcond

end Sys2Proof

namespace Sys2Proof.Machine

/-! ### The step on a reserved word -/

/-- A step on a word that does not decode is the answer ILLEGAL (`30_encoding.md` R68). -/
theorem step_of_decode_error {s : State} {w : CommandWord} {rest : List CommandWord} {e : Reserved}
    (hcmd : s.cmd = w :: rest) (hdecode : decode w = .error e) : step s = .next (illegal s) := by
  simp [step, nextCommand, hcmd, hdecode]

/-- The answer ILLEGAL to the word in front takes it off `CMD`, sends one response and touches nothing else. -/
theorem illegal_of_cmd {s : State} {w : CommandWord} {rest : List CommandWord} (hcmd : s.cmd = w :: rest) :
    illegal s = { s with cmd := rest, rsp := s.rsp ++ [0x3000000000000000000#74] } := by
  have hword : responseWord .illegal 0#36 0#36 = 0x3000000000000000000#74 := by decide
  rw [illegal, respond, hcmd, hword]
  rfl

/-- Settles O4: the conditions of R68 are those under which no row fits; such a word does not decode, so the step on it
is the answer ILLEGAL. -/
theorem reservedWordsAnswerIllegal : Obligations.ReservedWordsAnswerIllegal := by
  refine ⟨no_row_selects_iff_reservedCondition, ?_, by decide⟩
  intro s w rest hcmd hnone
  obtain ⟨e, hdecode⟩ := (decode_error_iff w).2 ((no_row_selects_iff w).1 hnone)
  rw [step_of_decode_error hcmd hdecode, illegal_of_cmd hcmd]

end Sys2Proof.Machine

/-! PROOFS. The little-endian arrangement `le32` and the insertion `PUT.LE` (`42_put_le.md` R92, R93): both forms of R92
are the low whole bytes above the leftover bits, and the masks change neither part. -/

namespace Sys2Proof.Machine

/-! ### The two parts of `le32`: the whole bytes and the leftover bits -/

/-- The `k` top bytes of the swapped value are its `k` low bytes, least significant first. -/
theorem shr32_bswap32_eq_wholeBytes (x : BitVec 32) {k : Nat} (hk : k ≤ 4) :
    shr32 (bswap32 x) (32 - 8 * k) = wholeBytesLsbFirst x k := by
  apply BitVec.eq_of_getLsbD_eq
  intro i hi
  rw [shr32, BitVec.getLsbD_ushiftRight, bswap_getLsbD, wholeBytes_getLsbD x k hk]
  by_cases hin : i < 8 * k
  · have hplace : 8 * (3 - (32 - 8 * k + i) / 8) + (32 - 8 * k + i) % 8 = 8 * (k - 1 - i / 8) + i % 8 := by omega
    have hwidth : 32 - 8 * k + i < 32 := by omega
    simp [hin, hwidth, hplace]
  · have hwidth : ¬ 32 - 8 * k + i < 32 := by omega
    simp [hin, hwidth]

/-- The byte below the `k` top bytes of the swapped value is byte `k`: its low `r` bits stand where they stood. -/
theorem shr32_bswap32_and_mask (x : BitVec 32) {k r : Nat} (hk : k < 4) (hr : r ≤ 8) :
    shr32 (bswap32 x) (24 - 8 * k) &&& mask 32 r = shr32 x (8 * k) &&& mask 32 r := by
  apply BitVec.eq_of_getLsbD_eq
  intro i hi
  simp only [masked_getLsbD, shr32, BitVec.getLsbD_ushiftRight, bswap_getLsbD]
  by_cases hir : i < r
  · have hplace : 8 * (3 - (24 - 8 * k + i) / 8) + (24 - 8 * k + i) % 8 = 8 * k + i := by omega
    have hwidth : 24 - 8 * k + i < 32 := by omega
    simp [hwidth, hplace]
  · simp [hir]

/-- The whole bytes lie below bit `n`, so the mask of `n` bits keeps them. -/
theorem wholeBytesLsbFirst_masked {n : Nat} (hn : n ≤ 32) (v : BitVec 32) :
    wholeBytesLsbFirst (v &&& mask 32 n) (n / 8) = wholeBytesLsbFirst v (n / 8) := by
  apply BitVec.eq_of_getLsbD_eq
  intro i hi
  rw [wholeBytes_getLsbD _ _ (by omega), wholeBytes_getLsbD _ _ (by omega), masked_getLsbD]
  by_cases hin : i < 8 * (n / 8)
  · have hbelow : 8 * (n / 8 - 1 - i / 8) + i % 8 < n := by omega
    simp [hbelow]
  · simp [hin]

/-- Above the whole bytes the mask of `n` bits leaves the low `n mod 8` bits. -/
theorem shr32_masked (n : Nat) (v : BitVec 32) :
    shr32 (v &&& mask 32 n) (8 * (n / 8)) = shr32 v (8 * (n / 8)) &&& mask 32 (n % 8) := by
  apply BitVec.eq_of_getLsbD_eq
  intro i hi
  have hleft : 8 * (n / 8) + i < n ↔ i < n % 8 := by omega
  simp only [masked_getLsbD, shr32, BitVec.getLsbD_ushiftRight, hleft]

/-! ### The two forms of R92 -/

/-- The first form of R92 with the masks moved off the whole bytes and onto the leftover bits. -/
theorem le32_eq_wholeBytes_or_leftover {n : Nat} (hn : n ≤ 32) (v : BitVec 32) :
    le32 n v = wholeBytesLsbFirst v (n / 8) <<< (n % 8) ||| (shr32 v (8 * (n / 8)) &&& mask 32 (n % 8)) := by
  rw [le32, wholeBytesLsbFirst_masked hn, shr32_masked]

theorem le32SwappedHigh_eq_wholeBytes {n : Nat} (hn : n ≤ 32) (v : BitVec 32) :
    le32SwappedHigh n v = wholeBytesLsbFirst v (n / 8) := by
  rw [le32SwappedHigh, shr32_bswap32_eq_wholeBytes _ (by omega), wholeBytesLsbFirst_masked hn]

theorem le32SwappedLow_eq_leftover {n : Nat} (hn : n ≤ 32) (v : BitVec 32) :
    le32SwappedLow n v = shr32 v (8 * (n / 8)) &&& mask 32 (n % 8) := by
  by_cases hr : n % 8 = 0
  · simp [le32SwappedLow, hr, mask]
  · rw [le32SwappedLow, if_neg hr, shr32_bswap32_and_mask _ (by omega) (by omega), shr32_masked, BitVec.and_assoc,
      BitVec.and_self]

/-- Adding a number of `r` bits below a number shifted up by `r` places sets its bits there: nothing carries. -/
theorem mul_two_pow_add_masked (x y : BitVec 32) (r : Nat) :
    x * BitVec.ofNat 32 (2 ^ r) + (y &&& mask 32 r) = x <<< r ||| (y &&& mask 32 r) := by
  have hpow : BitVec.ofNat 32 (2 ^ r) = BitVec.twoPow 32 r := by
    apply BitVec.eq_of_toNat_eq
    rw [BitVec.toNat_ofNat, BitVec.toNat_twoPow]
  have hdisjoint : x <<< r &&& (y &&& mask 32 r) = 0#32 := by
    apply BitVec.eq_of_getLsbD_eq
    intro i hi
    rw [BitVec.getLsbD_and, BitVec.getLsbD_shiftLeft, masked_getLsbD]
    by_cases hir : i < r <;> simp [hir]
  rw [hpow, BitVec.mul_twoPow_eq_shiftLeft, BitVec.add_eq_or_of_and_eq_zero _ _ hdisjoint]

/-- The two forms of R92 are the same number. -/
theorem le32_eq_le32BySwap {n : Nat} (hn : n ≤ 32) (v : BitVec 32) : le32 n v = le32BySwap n v := by
  rw [le32_eq_wholeBytes_or_leftover hn, le32BySwap, le32SwappedHigh_eq_wholeBytes hn, le32SwappedLow_eq_leftover hn,
    mul_two_pow_add_masked]

/-! ### `le32` as an `n`-bit number and as `n` stream bits -/

theorem le32_lt_two_pow {n : Nat} (hn : n ≤ 32) (v : BitVec 32) : (le32 n v).toNat < 2 ^ n := by
  apply Nat.lt_pow_two_of_testBit
  intro i hi
  have hwhole : ¬ i < n := by omega
  have hleft : ¬ i < n % 8 := by omega
  rw [BitVec.testBit_toNat, le32_getLsbD n v hn, if_neg hleft, if_neg hwhole]

/-- The stream bits of `le32 n v`: those of the whole bytes come first, from the upper `8·(n div 8)` bits. -/
theorem beBits_le32 {n : Nat} (hn : n ≤ 32) (v : BitVec 32) : beBits n (le32 n v) = leBits n v := by
  apply List.ext_getElem?
  intro j
  rw [beBits_getElem?, leBits_getElem?, le32_getLsbD n v hn]
  by_cases hj : j < n
  · rw [if_pos hj, if_pos hj, if_pos (by omega : n - 1 - j < n)]
    congr 1
    by_cases hwhole : j < 8 * (n / 8)
    · rw [if_neg (by omega), if_pos hwhole]
      congr 1
      omega
    · rw [if_pos (by omega), if_neg hwhole]
      congr 1
      omega
  · rw [if_neg hj, if_neg hj]

/-- Bits of the value above bit `n − 1` make no difference to `le32`. -/
theorem le32_masked (n : Nat) (v : BitVec 32) : le32 n (v &&& mask 32 n) = le32 n v := by
  rw [le32, le32, BitVec.and_assoc, BitVec.and_self]

theorem le32_zero (v : BitVec 32) : le32 0 v = 0#32 := by
  apply BitVec.eq_of_toNat_eq
  exact Nat.lt_one_iff.1 (le32_lt_two_pow (Nat.zero_le 32) v)

/-- Settles O23: both forms of R92 are brought to the whole bytes and the leftover bits of the unmasked value; the width
and the stream bits are read off the bits of `le32`. -/
theorem littleEndianFormsAgree : Obligations.LittleEndianFormsAgree := by
  intro n v hn
  refine ⟨le32_lt_two_pow hn v, beBits_le32 hn v, le32_eq_le32BySwap hn v, ?_, fun hr => ?_, le32_masked n v,
    le32_zero v⟩
  · rw [shr32_bswap32_eq_wholeBytes v (by omega), le32SwappedHigh_eq_wholeBytes hn]
  · rw [shr32_bswap32_and_mask v (by omega) (by omega), le32SwappedLow_eq_leftover hn]

/-! ### The two 32-bit insertions -/

/-- `PUT.BE` with a count in range inserts and answers OK (`41_put_be.md` R88). -/
theorem exec_putBe_of_le {n : BitVec 8} (hn : n.toNat ≤ 32) (v : BitVec 32) (s : State) :
    exec (.putBe n v) s = .next (respond .ok 0#36 0#36 (insertBe n.toNat v s)) := if_pos hn

/-- `PUT.LE` with a count in range inserts and answers OK (`42_put_le.md` R94). -/
theorem exec_putLe_of_le {n : BitVec 8} (hn : n.toNat ≤ 32) (v : BitVec 32) (s : State) :
    exec (.putLe n v) s = .next (respond .ok 0#36 0#36 (insertLe n.toNat v s)) := if_pos hn

/-- `PUT_LE` is `PUT_BE` of the rearranged value (`42_put_le.md` R93). -/
theorem insertLe_eq_insertBe (n : Nat) (v : BitVec 32) (s : State) :
    insertLe n v s = insertBe n (le32 n v) s := rfl

/-- Settles O22: with the count in range both commands answer OK after their insertion, and the insertions agree. -/
theorem putLeIsPutBeRearranged : Obligations.PutLeIsPutBeRearranged := by
  intro n v s hn
  refine ⟨?_, insertLe_eq_insertBe n.toNat v s⟩
  rw [exec_putLe_of_le hn, exec_putBe_of_le hn, insertLe_eq_insertBe]

end Sys2Proof.Machine

/-! PROOFS. The 64-bit insertions (`43_put64.md`): beyond 32 bits, two 32-bit insertions under one answer. -/

namespace Sys2Proof.Machine

/-! ### `PUT64` of more than 32 bits -/

/-- `PUT64.BE` with a count in range inserts and answers OK (`43_put64.md` R97). -/
theorem exec_put64Be_of_le {n : BitVec 8} (hn : n.toNat ≤ 64) (v : BitVec 64) (s : State) :
    exec (.put64Be n v) s = .next (respond .ok 0#36 0#36 (insert64Be n.toNat v s)) := if_pos hn

/-- `PUT64.LE` with a count in range inserts and answers OK (`43_put64.md` R98). -/
theorem exec_put64Le_of_le {n : BitVec 8} (hn : n.toNat ≤ 64) (v : BitVec 64) (s : State) :
    exec (.put64Le n v) s = .next (respond .ok 0#36 0#36 (insert64Le n.toNat v s)) := if_pos hn

/-- More than 32 bits, big-endian: the high part first (`43_put64.md` R97). -/
theorem insert64Be_of_gt {n : Nat} (hn : 32 < n) (v : BitVec 64) (s : State) :
    insert64Be n v s = insertBe 32 (v.extractLsb' 0 32) (insertBe (n - 32) (v.extractLsb' 32 32) s) := if_pos hn

/-- More than 32 bits, little-endian: the low part first (`43_put64.md` R98). -/
theorem insert64Le_of_gt {n : Nat} (hn : 32 < n) (v : BitVec 64) (s : State) :
    insert64Le n v s = insertLe (n - 32) (v.extractLsb' 32 32) (insertLe 32 (v.extractLsb' 0 32) s) := if_pos hn

/-- A command `i` whose effect is that of `j` and then that of `k`. Where the second effect commutes with answering,
`i` and the two commands leave states apart only in the commands and the responses, one against two
(`43_put64.md` R99). -/
theorem answered_once_or_twice {i j k : Instr} {f g : State → State} {s : State}
    (hi : exec i s = .next (respond .ok 0#36 0#36 (g (f s))))
    (hj : exec j s = .next (respond .ok 0#36 0#36 (f s)))
    (hk : ∀ u, exec k u = .next (respond .ok 0#36 0#36 (g u)))
    (hcomm : ∀ u, g (respond .ok 0#36 0#36 u) = respond .ok 0#36 0#36 (g u))
    (hdrains : Drains s (g (f s))) :
    ∃ t t1 t2, exec i s = .next t ∧ exec j s = .next t1 ∧ exec k t1 = .next t2 ∧
      t2 = { t with cmd := t2.cmd, rsp := t2.rsp } ∧
      t.rsp = s.rsp ++ [0#74] ∧ t2.rsp = s.rsp ++ [0#74, 0#74] := by
  obtain ⟨-, -, -, hrsp, -⟩ := hdrains
  have honce : (respond .ok 0#36 0#36 (g (f s))).rsp = s.rsp ++ [0#74] := congrArg (· ++ [0#74]) hrsp
  have htwice : (respond .ok 0#36 0#36 (respond .ok 0#36 0#36 (g (f s)))).rsp = s.rsp ++ [0#74, 0#74] := by
    rw [respond_rsp, honce, List.append_assoc]
    rfl
  refine ⟨_, _, _, hi, hj, hk _, ?_, honce, ?_⟩
  · rw [hcomm]
    rfl
  · rw [hcomm, htwice]

/-- Settles O26: beyond 32 bits a `PUT64` is its two insertions, and an insertion does not see whether a response came
before it (`insertBe_respond`, `insertLe_respond`). -/
theorem put64IsTwoInsertions : Obligations.Put64IsTwoInsertions := by
  intro n m v s hgt hle hm
  have hm32 : m.toNat ≤ 32 := by omega
  constructor
  · have hdrains := drains_insert64Be n.toNat v s
    have hexec := exec_put64Be_of_le hle v s
    rw [insert64Be_of_gt hgt, ← hm] at hdrains hexec
    exact answered_once_or_twice hexec (exec_putBe_of_le hm32 _ s) (exec_putBe_of_le (by decide) _)
      (insertBe_respond _ _ _ _ _) hdrains
  · have hdrains := drains_insert64Le n.toNat v s
    have hexec := exec_put64Le_of_le hle v s
    rw [insert64Le_of_gt hgt, ← hm] at hdrains hexec
    exact answered_once_or_twice hexec (exec_putLe_of_le (by decide) _ s) (exec_putLe_of_le hm32 _)
      (insertLe_respond _ _ _ _ _) hdrains

end Sys2Proof.Machine

/-! PROOFS. `FLUSH` (`44_flush.md`): the drain as a function of the state before it, the four rows of its table (R104),
and that a second `FLUSH` finds nothing left to drain (R102). -/

namespace Sys2Proof.Machine

/-! ### The command and its drain -/

theorem exec_flush (s : State) :
    exec .flush s = .next (respond (flushStatus (flushDrain s)) 0#36 0#36 (flushDrain s)) := rfl

/-- The loop is over: no whole byte is pending, or none fits (`44_flush.md` R102). -/
abbrev FlushComplete (s : State) : Prop := s.fill.toNat < 8 ∨ s.len.toNat ≤ s.index.toNat

theorem flushCount_eq_zero_iff (s : State) : flushCount s = 0 ↔ FlushComplete s := by
  unfold flushCount
  omega

theorem flushDrain_complete (s : State) : FlushComplete (flushDrain s) := by
  rw [FlushComplete, flushDrain_fill, flushDrain_len, flushDrain_index, flushCount]
  omega

theorem flushDrain_of_complete {s : State} (h : FlushComplete s) : flushDrain s = s := by
  rw [flushDrain_eq, (flushCount_eq_zero_iff s).2 h, flushed_zero]

/-- Where the loop is over, `FLUSH` only answers. -/
theorem exec_flush_of_complete {s : State} (h : FlushComplete s) :
    exec .flush s = .next (respond (flushStatus s) 0#36 0#36 s) := by
  rw [exec_flush, flushDrain_of_complete h]

/-- Settles O32: the first `FLUSH` leaves its loop over (`flushDrain_complete`), so the second only answers, and the
status depends on the registers alone, which the first answer does not touch. -/
theorem flushIsIdempotent : Obligations.FlushIsIdempotent := by
  intro s
  have hdone : FlushComplete (respond (flushStatus (flushDrain s)) 0#36 0#36 (flushDrain s)) := flushDrain_complete s
  refine ⟨_, _, responseWord (flushStatus (flushDrain s)) 0#36 0#36, exec_flush s, ?_, exec_flush_of_complete hdone,
    rfl, hdone⟩
  rw [respond_rsp, flushDrain_rsp]

/-! ### What the drain moves -/

/-- `INDEX` rises to `LEN` at most, by one for each whole byte pending (`44_flush.md` R104). -/
theorem flushDrain_index_eq_min (s : State) :
    (flushDrain s).index.toNat = min (max s.len.toNat s.index.toNat) (s.index.toNat + s.fill.toNat / 8) := by
  rw [flushDrain_index, flushCount]
  omega

theorem flushDrain_index_sub (s : State) : (flushDrain s).index.toNat - s.index.toNat = flushCount s := by
  rw [flushDrain_index, Nat.add_sub_cancel_left]

/-- Each byte moved leaves `FILL` by 8 bits and raises `INDEX` by 1: the position stays (`44_flush.md` R104). -/
theorem position_flushDrain (s : State) : position (flushDrain s) = position s := by
  rw [position, position, flushDrain_index, flushDrain_fill, flushCount]
  omega

/-- The register holds at most eight whole bytes. -/
theorem flushCount_le_eight {s : State} (hf : s.fill.toNat ≤ 64) : flushCount s ≤ 8 := by
  unfold flushCount
  omega

theorem oldestBytes_getElem? {k j : Nat} (hj : j < k) (c : BitVec 64) :
    (oldestBytes k c)[j]? = some (c.extractLsb' (56 - 8 * j) 8) := by
  simp [oldestBytes, hj]

/-- The drain writes the oldest bytes of the register at the offsets that `INDEX` passes, and no other. -/
theorem read_flushDrain_dst {s : State} (hf : s.fill.toNat ≤ 64) (a : Nat) :
    Memory.read (flushDrain s).dst a =
      if s.index.toNat ≤ a ∧ a < (flushDrain s).index.toNat then
        some (s.cache.extractLsb' (56 - 8 * (a - s.index.toNat)) 8)
      else Memory.read s.dst a := by
  rw [flushDrain_dst, topBytes_eq_oldestBytes (flushCount_le_eight hf), read_applyEvents_eventsAt, length_oldestBytes,
    flushDrain_index]
  refine ite_congr rfl (fun hin => ?_) fun _ => rfl
  exact oldestBytes_getElem? (by omega) _

/-- The write events of the drain: one per byte moved, at ascending offsets (`20_memory.md` R33, R45). -/
theorem flushDrain_dstw_eq_oldestBytes {s : State} (hf : s.fill.toNat ≤ 64) :
    (flushDrain s).dstw = s.dstw ++ eventsAt s.index.toNat (oldestBytes (flushCount s) s.cache) := by
  rw [flushDrain_dstw, topBytes_eq_oldestBytes (flushCount_le_eight hf)]

/-! ### The rows of the table (`44_flush.md` R104) -/

theorem ceil8_le_iff (f n : Nat) : ceil8 f ≤ n ↔ f ≤ 8 * n := by
  unfold ceil8
  omega

theorem lt_ceil8_iff (f n : Nat) : n < ceil8 f ↔ 8 * n < f := by
  unfold ceil8
  omega

/-- Where the stream fits, every whole byte is moved: `INDEX` counts the whole bytes of the stream, and the bits beyond
them stay pending. -/
theorem flushDrain_of_fits {s : State} (hfits : position s ≤ 8 * s.len.toNat) :
    flushCount s = s.fill.toNat / 8 ∧
      (flushDrain s).index.toNat = position s / 8 ∧ (flushDrain s).fill.toNat = position s % 8 := by
  rw [flushDrain_index, flushDrain_fill]
  unfold flushCount
  unfold position at hfits ⊢
  omega

/-- Row 1: a stream of whole bytes that fits leaves nothing pending. -/
theorem flushDrain_ok {s : State} (hlj : LeftJustified s) (hfits : position s ≤ 8 * s.len.toNat)
    (hwhole : position s % 8 = 0) :
    flushStatus (flushDrain s) = .ok ∧ (flushDrain s).index.toNat = position s / 8 ∧
      (flushDrain s).fill = 0#7 ∧ (flushDrain s).cache = 0#64 := by
  obtain ⟨hcount, hindex, hfill⟩ := flushDrain_of_fits hfits
  have hpos : position s = s.index.toNat * 8 + s.fill.toNat := rfl
  refine ⟨?_, hindex, BitVec.eq_of_toNat_eq (hfill.trans hwhole), ?_⟩
  · rw [flushStatus_flushDrain, if_neg (by omega), if_pos hwhole]
  · rw [flushDrain_cache, hcount, show 8 * (s.fill.toNat / 8) = s.fill.toNat by omega]
    exact hlj

/-- Row 2: a stream that fits and ends inside a byte leaves that byte's bits pending. -/
theorem flushDrain_underflow {s : State} (hfits : position s ≤ 8 * s.len.toNat) (hpart : position s % 8 ≠ 0) :
    flushStatus (flushDrain s) = .underflow ∧ (flushDrain s).index.toNat = position s / 8 ∧
      (flushDrain s).fill.toNat = position s % 8 := by
  obtain ⟨-, hindex, hfill⟩ := flushDrain_of_fits hfits
  have hpos : position s = s.index.toNat * 8 + s.fill.toNat := rfl
  refine ⟨?_, hindex, hfill⟩
  rw [flushStatus_flushDrain, if_neg (by omega), if_neg hpart]

/-- Row 3: a stream that does not fit fills the destination and leaves the rest pending. -/
theorem flushDrain_overflow {s : State} (hindex : s.index.toNat ≤ s.len.toNat) (hover : 8 * s.len.toNat < position s) :
    flushStatus (flushDrain s) = .overflow ∧ (flushDrain s).index = s.len ∧
      (flushDrain s).fill.toNat = position s - 8 * s.len.toNat := by
  have hpos : position s = s.index.toNat * 8 + s.fill.toNat := rfl
  have hcount : flushCount s = s.len.toNat - s.index.toNat := by
    unfold flushCount
    omega
  refine ⟨?_, ?_, ?_⟩
  · rw [flushStatus_flushDrain, if_pos (.inl hover)]
  · apply BitVec.eq_of_toNat_eq
    rw [flushDrain_index, hcount, Nat.add_sub_cancel' hindex]
  · rw [flushDrain_fill, hcount]
    omega

/-- Row 4: with `INDEX` past `LEN` nothing is moved. -/
theorem flushDrain_beyond {s : State} (hindex : s.len.toNat < s.index.toNat) :
    flushStatus (flushDrain s) = .overflow ∧ flushDrain s = s := by
  refine ⟨?_, flushDrain_of_complete (.inr hindex.le)⟩
  rw [flushStatus_flushDrain, if_pos (.inr hindex)]

/-- Settles O31: the registers and the writes are those of the drain, the rows of the table are the four lemmas
`flushDrain_ok`, `flushDrain_underflow`, `flushDrain_overflow` and `flushDrain_beyond`, and the answer touches no more
than `CMD` and `RSP`. -/
theorem flushStatusTable : Obligations.FlushStatusTable := by
  intro s hf hlj
  refine ⟨_, flushStatus (flushDrain s), exec_flush s, ?_⟩
  simp only [respond_index, respond_fill, respond_cache, respond_dst, respond_dstw, flushDrain_index_sub, ceil8_le_iff,
    lt_ceil8_iff]
  refine ⟨flushDrain_index_eq_min s, flushDrain_fill s, flushDrain_cache s, position_flushDrain s,
    read_flushDrain_dst hf, flushDrain_dstw_eq_oldestBytes hf, ?response, ?whole, ?short, ?overflow, ?beyond, ?frame⟩
  case response => rw [respond_rsp, flushDrain_rsp]
  case whole => exact fun _ hfits hwhole => flushDrain_ok hlj hfits hwhole
  case short => exact fun _ hfits hpart => flushDrain_underflow hfits hpart
  case overflow =>
    intro hindex hover
    obtain ⟨hst, hlen, hfill⟩ := flushDrain_overflow hindex hover
    have hpos : position s = s.index.toNat * 8 + s.fill.toNat := rfl
    exact ⟨hst, hlen, hfill, by omega, by omega⟩
  case beyond =>
    intro hindex
    obtain ⟨hst, hsame⟩ := flushDrain_beyond hindex
    rw [hsame] at hst ⊢
    exact ⟨hst, rfl, rfl, rfl, rfl, rfl⟩
  case frame =>
    rw [flushDrain_eq]
    rfl

end Sys2Proof.Machine

/-! PROOFS. The queries `POS`, `REM` and `TAIL` (`46_introspection_reset.md`): a response gives back the fields it is made
of, the 36 bits of a field hold each of the numbers, and a query does no more than answer (R113). -/

namespace Sys2Proof.Machine

/-! ### The fields of a response word (`30_encoding.md` R66) -/

@[simp] theorem rspStatus_responseWord (st : Status) (v0 v1 : BitVec 36) :
    rspStatus (responseWord st v0 v1) = statusCode st := by
  rw [rspStatus, responseWord, BitVec.extractLsb'_append_eq_of_le (by decide)]
  exact BitVec.extractLsb'_append_eq_left

@[simp] theorem rspV1_responseWord (st : Status) (v0 v1 : BitVec 36) : rspV1 (responseWord st v0 v1) = v1 := by
  rw [rspV1, responseWord, BitVec.extractLsb'_append_eq_of_le (Nat.le_refl 36)]
  exact BitVec.extractLsb'_append_eq_right

@[simp] theorem rspV0_responseWord (st : Status) (v0 v1 : BitVec 36) : rspV0 (responseWord st v0 v1) = v0 :=
  BitVec.extractLsb'_append_eq_right

/-! ### The numbers of the queries and their bounds -/

/-- The largest position, with `INDEX` at 2^32 - 1 and any `FILL`, is below 2^36. -/
theorem position_lt (s : State) : position s < 2 ^ 36 := by
  unfold position
  omega

/-- The clamp of R110 is natural subtraction. -/
theorem remainingBits_eq_sub (s : State) : remainingBits s = s.len.toNat * 8 - position s := by
  rw [remainingBits, min_comm, tsub_min]

theorem remainingBits_lt (s : State) : remainingBits s < 2 ^ 36 := by
  rw [remainingBits_eq_sub]
  omega

theorem consumedBytes_le_len (s : State) : consumedBytes s ≤ s.len.toNat := Nat.min_le_right _ _

theorem consumedBytes_lt (s : State) : consumedBytes s < 2 ^ 36 := by
  have hle := consumedBytes_le_len s
  omega

theorem tailLength_lt (s : State) : s.len.toNat - consumedBytes s < 2 ^ 36 := by
  omega

/-! ### The commands -/

theorem exec_pos (s : State) :
    exec .pos s = .next (respond .ok (BitVec.ofNat 36 (position s)) 0#36 s) := rfl

theorem exec_rem (s : State) :
    exec .rem s = .next (respond .ok (BitVec.ofNat 36 (remainingBits s)) 0#36 s) := rfl

theorem exec_tail (s : State) :
    exec .tail s =
      .next (respond .ok (BitVec.ofNat 36 (consumedBytes s)) (BitVec.ofNat 36 (s.len.toNat - consumedBytes s)) s) := rfl

/-- Settles O39: each query is an answer alone (`exec_pos`, `exec_rem`, `exec_tail`), its response gives back the fields,
and each number is below 2^36. -/
theorem queriesOnlyAnswer : Obligations.QueriesOnlyAnswer := by
  intro s
  refine ⟨⟨_, exec_pos s, ?okPos, ?position, ?zeroPos⟩, ⟨_, exec_rem s, ?okRem, ?remaining, ?zeroRem⟩,
    ⟨_, exec_tail s, ?okTail, ?consumed, ?tailLength⟩⟩
  case okPos | okRem | okTail => exact rspStatus_responseWord .ok _ _
  case zeroPos | zeroRem => exact rspV1_responseWord _ _ _
  case position =>
    rw [rspV0_responseWord, BitVec.toNat_ofNat, Nat.mod_eq_of_lt (position_lt s)]
    rfl
  case remaining =>
    rw [rspV0_responseWord, BitVec.toNat_ofNat, Nat.mod_eq_of_lt (remainingBits_lt s), remainingBits_eq_sub]
    rfl
  case consumed =>
    rw [rspV0_responseWord, BitVec.toNat_ofNat, Nat.mod_eq_of_lt (consumedBytes_lt s)]
    rfl
  case tailLength =>
    rw [rspV1_responseWord, BitVec.toNat_ofNat, Nat.mod_eq_of_lt (tailLength_lt s)]
    rfl

end Sys2Proof.Machine

/-! PROOFS. Command words (`30_encoding.md`): decoding the word of an instruction, what a word that decodes carries, the
ten bytes of a word, and what the assembler emits. -/

namespace Sys2Proof

open Laws (opcodeOf selectorOf)

/-! ### Decode and encode agree -/

theorem cntField_commandWord (o : BitVec 4) (e : BitVec 1) (c : BitVec 8) (d : BitVec 64) :
    cntField (commandWord o e c d) = c := by
  obtain ⟨-, -, -, hcnt, -⟩ := commandWord_fields o e c d
  exact hcnt

theorem dataField_commandWord (o : BitVec 4) (e : BitVec 1) (c : BitVec 8) (d : BitVec 64) :
    dataField (commandWord o e c d) = d := by
  obtain ⟨-, -, -, -, hdata, -⟩ := commandWord_fields o e c d
  exact hdata

theorem datahField_commandWord (o : BitVec 4) (e : BitVec 1) (c : BitVec 8) (h l : BitVec 32) :
    datahField (commandWord o e c (h ++ l)) = h := by
  obtain ⟨-, -, -, -, -, hhigh, -⟩ := commandWord_fields o e c (h ++ l)
  exact hhigh.trans (halves_of_append h l).1

theorem datalField_commandWord (o : BitVec 4) (e : BitVec 1) (c : BitVec 8) (h l : BitVec 32) :
    datalField (commandWord o e c (h ++ l)) = l := by
  obtain ⟨-, -, -, -, -, -, hlow⟩ := commandWord_fields o e c (h ++ l)
  exact hlow.trans (halves_of_append h l).2

/-- The word of an instruction carries its row's opcode and selector, and `Z = 0`. -/
theorem encode_fields (i : Instr) :
    opcField (encode i) = opcodeOf i.op ∧ eField (encode i) = selectorOf i.op ∧ zField (encode i) = 0#3 := by
  cases i <;> exact Laws.fields_of_commandWord _ _ _ _

/-- The operand fields of the word of a well-formed instruction are those its row's format allows. -/
theorem operandsFit_encode {i : Instr} (h : i.wellFormed = true) : OperandsFit (encode i) i.op := by
  cases i with
  | init n | wrb n => exact ⟨cntField_commandWord _ _ _ _, datahField_commandWord _ _ _ _ _⟩
  | inith n hint => exact cntField_commandWord _ _ _ _
  | reset | flush | pos | rem | tail => exact ⟨cntField_commandWord _ _ _ _, dataField_commandWord _ _ _ _⟩
  | putBe n v | putLe n v =>
    refine ⟨?_, datahField_commandWord _ _ _ _ _⟩
    rw [encode, cntField_commandWord]
    exact of_decide_eq_true h
  | put64Be n v | put64Le n v =>
    change (cntField (encode _)).toNat ≤ _
    rw [encode, cntField_commandWord]
    exact of_decide_eq_true h

/-- The operands that stand in the fields of an instruction's word are the instruction's own. -/
theorem rowInstr_encode (i : Instr) : rowInstr (encode i) i.op = i := by
  cases i <;>
    simp only [Instr.op, rowInstr, encode, cntField_commandWord, dataField_commandWord, datahField_commandWord,
      datalField_commandWord]

theorem decode_encode {i : Instr} (h : i.wellFormed = true) : decode (encode i) = .ok i := by
  obtain ⟨ho, he, hz⟩ := encode_fields i
  rw [decode_of_fitsRow ⟨hz, ho, he, operandsFit_encode h⟩, rowInstr_encode]

/-- Settles O1: the word of a well-formed instruction fits the instruction's row, and that row's instruction is read
back from its fields. -/
theorem decodeOfEncode : Obligations.DecodeOfEncode := fun _ h => decode_encode h

/-- The counts of a word that fits a row are in the row's range (`30_encoding.md` R64). -/
theorem rowInstr_wellFormed {w : CommandWord} {op : Op} (h : FitsRow w op) : (rowInstr w op).wellFormed = true := by
  obtain ⟨-, -, -, hfit⟩ := h
  cases op
  case putBe | putLe => exact decide_eq_true hfit.1
  case put64Be | put64Le => exact decide_eq_true hfit
  all_goals rfl

theorem wellFormed_of_decode {w : CommandWord} {i : Instr} (h : decode w = .ok i) : i.wellFormed = true := by
  have hfits := fitsRow_of_decode h
  have hinstr : rowInstr w i.op = i := Except.ok.inj ((decode_of_fitsRow hfits).symm.trans h)
  exact hinstr ▸ rowInstr_wellFormed hfits

/-- Settles O2: a word that decodes fits the row of its instruction, which fixes every field and bounds the count. -/
theorem encodeOfDecode : Obligations.EncodeOfDecode := fun _ _ h => ⟨encode_of_decode h, wellFormed_of_decode h⟩

/-- Settles O5: each word of the table is the word of the command beside it. -/
theorem workedEncodingsDecode : Obligations.WorkedEncodingsDecode :=
  ⟨decode_encode (i := .init 5#32) rfl, decode_encode (i := .inith 8#32 16#32) rfl,
    decode_encode (i := .putBe 5#8 0x15#32) rfl, decode_encode (i := .putLe 12#8 0xABC#32) rfl,
    decode_encode (i := .put64Be 33#8 0xFFFFFFFE00000001#64) rfl, decode_encode (i := .flush) rfl,
    decode_encode (i := .wrb 3#32) rfl⟩

/-! ### The ten bytes of a word (`30_encoding.md` R70) -/

/-- A byte put below the upper bits that the bytes before it gave. -/
theorem ushiftRight_shiftLeft_or_byte (w : CommandWord) (k : Nat) :
    (w >>> (k + 8)) <<< 8 ||| (w.extractLsb' k 8).setWidth 80 = w >>> k := by
  apply BitVec.eq_of_getLsbD_eq
  intro i hi
  simp only [BitVec.getLsbD_or, BitVec.getLsbD_shiftLeft, BitVec.getLsbD_ushiftRight, BitVec.getLsbD_setWidth,
    BitVec.getLsbD_extractLsb', hi, decide_true, Bool.true_and]
  by_cases hlow : i < 8
  · simp [hlow]
  · have hplace : k + 8 + (i - 8) = k + i := by omega
    simp [hlow, hplace]

/-- The first `k` bytes of a word, most significant first, read back as its upper `8k` bits. -/
theorem foldl_bytes_eq_ushiftRight (w : CommandWord) {k : Nat} (hk : k ≤ 10) :
    ((List.range k).map fun j => w.extractLsb' (8 * (9 - j)) 8).foldl
      (fun (acc : CommandWord) (b : Byte) => acc <<< 8 ||| b.setWidth 80) 0#80 = w >>> (8 * (10 - k)) := by
  induction k with
  | zero =>
    apply BitVec.eq_of_getLsbD_eq
    intro i hi
    simp
  | succ k ih =>
    rw [List.range_succ, List.map_append, List.foldl_append, ih (by omega)]
    have hnext := ushiftRight_shiftLeft_or_byte w (8 * (9 - k))
    rw [show 8 * (9 - k) + 8 = 8 * (10 - k) by omega] at hnext
    rw [show 10 - (k + 1) = 9 - k by omega]
    exact hnext

/-- Settles O6: ten bytes are read back as all 80 bits of the word (`foldl_bytes_eq_ushiftRight`). -/
theorem wordBytesRoundTrip : Obligations.WordBytesRoundTrip := by
  intro w
  refine ⟨?_, rfl, rfl⟩
  have hlength : (commandBytes w).length = 10 := by simp [commandBytes]
  rw [wordOfBytes, if_pos hlength, commandBytes, foldl_bytes_eq_ushiftRight w (Nat.le_refl 10)]
  rfl

end Sys2Proof

namespace Sys2Proof.Machine

/-! ### The assembler (`30_encoding.md` R71) -/

/-- A line with an operand outside its field is rejected, so what is assembled is well formed. -/
theorem wellFormed_of_assembleInstr {a : AsmLine} {i : Instr} (h : assembleInstr a = some i) :
    i.wellFormed = true := by
  cases a with
  | putBe n v | putLe n v | put64Be n v | put64Le n v =>
    obtain ⟨⟨hn, -⟩, hi⟩ := Option.ite_none_right_eq_some.1 h
    obtain rfl := Option.some.inj hi
    exact decide_eq_true ((Nat.mod_le n _).trans hn)
  | init n | wrb p | inith n hint =>
    obtain ⟨-, hi⟩ := Option.ite_none_right_eq_some.1 h
    obtain rfl := Option.some.inj hi
    rfl
  | reset | flush | pos | rem | tail =>
    obtain rfl := Option.some.inj h
    rfl

/-- How many payload bytes an instruction announces: `L` for `WRB`, none for the others (`30_encoding.md` R65). -/
def announcedLength : Instr → Nat
  | .wrb l => l.toNat
  | _ => 0

theorem payloadLength_of_decode {w : CommandWord} {i : Instr} (h : decode w = .ok i) :
    payloadLength w = announcedLength i := by
  rw [payloadLength, h]
  cases i <;> rfl

/-- The payload of a line is as long as its instruction announces. -/
theorem announcedLength_of_assembleInstr {a : AsmLine} {i : Instr} (h : assembleInstr a = some i) :
    announcedLength i = (assemblePayload a).length := by
  cases a with
  | wrb p =>
    obtain ⟨hp, hi⟩ := Option.ite_none_right_eq_some.1 h
    obtain rfl := Option.some.inj hi
    exact Nat.mod_eq_of_lt hp
  | init n | inith n hint | putBe n v | putLe n v | put64Be n v | put64Le n v =>
    obtain ⟨-, hi⟩ := Option.ite_none_right_eq_some.1 h
    obtain rfl := Option.some.inj hi
    rfl
  | reset | flush | pos | rem | tail =>
    obtain rfl := Option.some.inj h
    rfl

/-- Settles O7: what is assembled is well formed, so its word decodes to it, and it announces the line's payload. -/
theorem assemblerEmitsNoReservedWord : Obligations.AssemblerEmitsNoReservedWord := by
  intro a w p h
  obtain ⟨i, hi, hword⟩ := Option.map_eq_some_iff.1 h
  obtain ⟨rfl, rfl⟩ := Prod.mk.inj hword
  have hdecode := decode_encode (wellFormed_of_assembleInstr hi)
  exact ⟨i, hi, hdecode, (payloadLength_of_decode hdecode).trans (announcedLength_of_assembleInstr hi)⟩

end Sys2Proof.Machine

/-! PROOFS. One step (`10_state.md` R24, `30_encoding.md` R60): what it runs, how it answers, and what it never does. -/

namespace Sys2Proof.Machine

/-! ### Which command a step runs -/

theorem step_of_decode_ok {s : State} {w : CommandWord} {rest : List CommandWord} {i : Instr}
    (hcmd : s.cmd = w :: rest) (hdecode : decode w = .ok i) : step s = exec i s := by
  simp [step, nextCommand, hcmd, hdecode]

theorem step_of_no_command {s : State} (hcmd : s.cmd = []) : step s = .next s := by
  simp [step, nextCommand, hcmd, idle]

/-- Settles O8, one lemma for each of the three things a step can find on `CMD`. -/
theorem stepRunsDecodedCommand : Obligations.StepRunsDecodedCommand :=
  ⟨fun _ _ _ _ => step_of_decode_ok, fun _ _ _ _ => step_of_decode_error, fun _ => step_of_no_command⟩

theorem nextInstr_of_decode_ok {s : State} {w : CommandWord} {rest : List CommandWord} {i : Instr}
    (hcmd : s.cmd = w :: rest) (hdecode : decode w = .ok i) : nextInstr s = some i := by
  simp [nextInstr, nextCommand, hcmd, hdecode]

theorem nextInstr_eq_some {s : State} {i : Instr} (h : nextInstr s = some i) :
    ∃ w rest, s.cmd = w :: rest ∧ decode w = .ok i := by
  rcases hcmd : s.cmd with _ | ⟨w, rest⟩
  · simp [nextInstr, nextCommand, hcmd] at h
  · refine ⟨w, rest, rfl, ?_⟩
    cases hdecode : decode w with
    | ok j =>
      rw [nextInstr_of_decode_ok hcmd hdecode] at h
      rw [Option.some.inj h]
    | error e => simp [nextInstr, nextCommand, hcmd, hdecode] at h

theorem step_of_nextInstr {s : State} {i : Instr} (h : nextInstr s = some i) : step s = exec i s := by
  obtain ⟨w, rest, hcmd, hdecode⟩ := nextInstr_eq_some h
  exact step_of_decode_ok hcmd hdecode

theorem exec_completes (i : Instr) (s : State) : ∃ t, exec i s = .next t := by
  obtain ⟨f, -, hexec⟩ := exec_completesIgnoringDst i
  exact ⟨f s, hexec s⟩

/-- Settles O9: an idle block and a reserved word have a next state, and so has every command (`exec_completes`). -/
theorem everyStepCompletes : Obligations.EveryStepCompletes := by
  intro s
  rcases hcmd : s.cmd with _ | ⟨w, rest⟩
  · exact ⟨s, step_of_no_command hcmd⟩
  · cases hdecode : decode w with
    | ok i =>
      rw [step_of_decode_ok hcmd hdecode]
      exact exec_completes i s
    | error e => exact ⟨illegal s, step_of_decode_error hcmd hdecode⟩

/-! ### The answer to a command -/

/-- Settles O12, by the lemmas on the fields of a response word. -/
theorem responseWordFields : Obligations.ResponseWordFields :=
  ⟨fun st v0 v1 => ⟨rspStatus_responseWord st v0 v1, rspV0_responseWord st v0 v1, rspV1_responseWord st v0 v1⟩,
    rfl, rfl, rfl, rfl⟩

/-- Who may answer which status: every command OK, `FLUSH` and `WRB` Overflow and Underflow, and ILLEGAL only an
instruction that no legal word carries (`30_encoding.md` R67). -/
def MayAnswer (i : Instr) : Status → Prop
  | .ok => True
  | .overflow | .underflow => i = .flush ∨ ∃ l, i = .wrb l
  | .illegal => i.wellFormed = false

/-- The command `i` was answered once, with a status that it may answer. -/
def AnswersProperly (i : Instr) (s t : State) : Prop :=
  ∃ st v0 v1, AnswersWith (responseWord st v0 v1) s t ∧ MayAnswer i st

theorem AnswersProperly.of_respond {i : Instr} {s u : State} {st : Status} {v0 v1 : BitVec 36}
    (hcmd : u.cmd = s.cmd) (hrsp : u.rsp = s.rsp) (hst : MayAnswer i st) :
    AnswersProperly i s (respond st v0 v1 u) :=
  ⟨st, v0, v1, ⟨congrArg List.tail hcmd, congrArg (· ++ [responseWord st v0 v1]) hrsp⟩, hst⟩

/-- `FLUSH` and `WRB` may answer any status but ILLEGAL. -/
theorem mayAnswer_of_ne_illegal {i : Instr} (hi : i = .flush ∨ ∃ l, i = .wrb l) {st : Status} (hst : st ≠ .illegal) :
    MayAnswer i st := by
  cases st with
  | ok => trivial
  | overflow | underflow => exact hi
  | illegal => contradiction

theorem flushStatus_ne_illegal (s : State) : flushStatus s ≠ .illegal := by
  unfold flushStatus
  split_ifs <;> decide

/-- Every command is answered once, but for a `WRB` that waits for its payload. -/
theorem exec_answers {i : Instr} {s t : State} (h : exec i s = .next t) :
    (t = s ∧ ∃ l, i = .wrb l ∧ s.pay.length < l.toNat) ∨ AnswersProperly i s t := by
  rcases exec_cases i s t h with
    hwait | ⟨n, -, rfl⟩ | ⟨-, rfl⟩ | ⟨hill, rfl⟩ | ⟨u, -, hdrains, rfl⟩ | ⟨rfl, rfl⟩ | ⟨l, rfl, rfl⟩ | ⟨v0, v1, -, rfl⟩
  · exact .inl hwait
  · exact .inr (.of_respond rfl rfl trivial)
  · exact .inr (.of_respond rfl rfl trivial)
  · exact .inr (.of_respond rfl rfl hill)
  · obtain ⟨-, hcmd, -, hrsp, -⟩ := hdrains
    exact .inr (.of_respond hcmd hrsp trivial)
  · exact .inr (.of_respond (flushDrain_cmd s) (flushDrain_rsp s)
      (mayAnswer_of_ne_illegal (.inl rfl) (flushStatus_ne_illegal _)))
  · obtain ⟨u, _, st, v0, ⟨-, hcmd, -, hrsp, -⟩, ht, -, hst⟩ :=
      writePayload_drains (s.pay.take l.toNat) (consumePayload l.toNat s)
    rw [ht]
    refine .inr (.of_respond hcmd hrsp (mayAnswer_of_ne_illegal (.inr ⟨l, rfl⟩) ?_))
    rcases hst with rfl | rfl | rfl <;> decide
  · exact .inr (.of_respond rfl rfl trivial)

/-- Settles O10: a reserved word is answered ILLEGAL, and a command as `exec_answers` says. -/
theorem eachCommandAnsweredOnce : Obligations.EachCommandAnsweredOnce := by
  intro s t w rest hcmd hstep
  have htail : s.cmd.tail = rest := by rw [hcmd, List.tail_cons]
  cases hdecode : decode w with
  | error e =>
    rw [step_of_decode_error hcmd hdecode] at hstep
    obtain rfl := Host.Outcome.next.inj hstep
    exact .inl ⟨htail, _, rfl⟩
  | ok i =>
    rw [step_of_decode_ok hcmd hdecode] at hstep
    rcases exec_answers hstep with ⟨hsame, l, rfl, hshort⟩ | ⟨st, v0, v1, ⟨hcmd', hrsp⟩, -⟩
    · exact .inr ⟨hsame, l, rfl, hshort⟩
    · exact .inl ⟨hcmd'.trans htail, _, hrsp⟩

/-- The response of a command carries a status that the command may answer. -/
theorem mayAnswer_of_exec {i : Instr} {s t : State} {r : ResponseWord} (h : exec i s = .next t)
    (hr : t.rsp = s.rsp ++ [r]) : ∃ st, MayAnswer i st ∧ rspStatus r = statusCode st := by
  rcases exec_answers h with ⟨rfl, -⟩ | ⟨st, v0, v1, ⟨-, hrsp⟩, hst⟩
  · simp at hr
  · obtain rfl : responseWord st v0 v1 = r := by simpa using hrsp.symm.trans hr
    exact ⟨st, hst, rspStatus_responseWord st v0 v1⟩

/-- Settles O11: an idle step answers nothing, a reserved word answers ILLEGAL, and a legal word carries a well-formed
command, which answers within `MayAnswer`. -/
theorem errorStatusesHaveTheirSources : Obligations.ErrorStatusesHaveTheirSources := by
  intro s t r hstep hr
  rcases step_cases s t hstep with ⟨-, rfl⟩ | ⟨w, rest, hcmd, ⟨e, hdecode, rfl⟩ | ⟨i, hdecode, hexec⟩⟩
  · simp at hr
  · obtain rfl : responseWord .illegal 0#36 0#36 = r := by simpa using hr
    rw [rspStatus_responseWord]
    exact ⟨by simp [statusCode], fun _ => ⟨w, e, by rw [hcmd]; rfl, hdecode⟩⟩
  · obtain ⟨st, hst, hcode⟩ := mayAnswer_of_exec hexec hr
    rw [hcode, nextInstr_of_decode_ok hcmd hdecode]
    simp only [Option.some.injEq]
    cases st with
    | ok => exact ⟨by simp [statusCode], by simp [statusCode]⟩
    | overflow | underflow => exact ⟨fun _ => hst, by simp [statusCode]⟩
    | illegal => exact absurd (wellFormed_of_decode hdecode) (by rw [show i.wellFormed = false from hst]; decide)

/-! ### Reset and binding (`40_construction.md`, `70_reset_and_hazards.md`) -/

/-- Settles O13, field by field. -/
theorem powerOnZeroesRegisters : Obligations.PowerOnZeroesRegisters :=
  ⟨fun s => ⟨powerOn_cache s, powerOn_fill s, powerOn_index s, powerOn_len s, powerOn_rsp s, powerOn_dst s,
    powerOn_dstw s⟩, rfl, rfl, rfl, rfl, rfl, rfl⟩

theorem exec_init (n : BitVec 32) (s : State) :
    exec (.init n) s = .next (respond .ok 0#36 0#36 (bindDestination n s)) := rfl

theorem exec_inith (n hint : BitVec 32) (s : State) :
    exec (.inith n hint) s = .next (respond .ok 0#36 0#36 (bindDestination n s)) := rfl

theorem exec_reset (s : State) : exec .reset s = .next (respond .ok 0#36 0#36 (clearDataPath s)) := rfl

/-- `RESET` clears what a binding clears, and keeps `LEN` (`46_introspection_reset.md` R112). -/
theorem clearDataPath_eq_bindDestination (s : State) : clearDataPath s = bindDestination s.len s := rfl

@[simp] theorem responseWord_ok : responseWord .ok 0#36 0#36 = 0#74 := by decide

@[simp] theorem responseWord_overflow : responseWord .overflow 0#36 0#36 = 0x1000000000000000000#74 := by decide

@[simp] theorem responseWord_underflow : responseWord .underflow 0#36 0#36 = 0x2000000000000000000#74 := by decide

/-- The state after the answer OK with no numbers. -/
theorem respond_ok_eq (s : State) :
    respond .ok 0#36 0#36 s = { s with cmd := s.cmd.tail, rsp := s.rsp ++ [0#74] } := by
  rw [respond, responseWord_ok]

/-- Settles O15: `INIT` answers OK after the binding. -/
theorem initBindsDestination : Obligations.InitBindsDestination := by
  intro n s
  rw [exec_init, respond_ok_eq]
  rfl

/-- Settles O16: both commands answer OK after the same binding. -/
theorem inithIgnoresItsHint : Obligations.InithIgnoresItsHint := by
  intro n hint s
  have hsame : exec (.inith n hint) s = exec (.init n) s := by rw [exec_inith, exec_init]
  exact ⟨hsame, hsame.trans (initBindsDestination n s)⟩

/-- Settles O17: `RESET` is the binding to the same `LEN`. -/
theorem resetClearsDataPath : Obligations.ResetClearsDataPath := by
  intro s
  have hsame : exec .reset s = exec (.init s.len) s := by
    rw [exec_reset, clearDataPath_eq_bindDestination, exec_init]
  exact ⟨hsame.trans (initBindsDestination s.len s), hsame⟩

/-! ### What a step leaves alone -/

/-- Settles O14: with `LEN = 0` no event can lie below `LEN`, so the step records none (`writesAreEventsInBounds`). -/
theorem unboundBlockWritesNowhere : Obligations.UnboundBlockWritesNowhere := by
  intro s t hlen hstep
  obtain ⟨ev, hdstw, hdst, hbound⟩ := writesAreEventsInBounds s t hstep
  have hnone : ev = [] := by
    rw [List.eq_nil_iff_forall_not_mem]
    intro c hc
    simpa [hlen] using hbound c hc
  subst hnone
  exact ⟨hdst, by simpa using hdstw⟩

/-- A command other than a binding keeps `LEN` (`10_state.md` R13). -/
theorem exec_len {i : Instr} {s t : State} (h : exec i s = .next t) :
    (∃ n, i = .init n ∧ t.len = n) ∨ (∃ n hint, i = .inith n hint ∧ t.len = n) ∨ t.len = s.len := by
  rcases exec_cases i s t h with
    ⟨rfl, -⟩ | ⟨n, hi, rfl⟩ | ⟨-, rfl⟩ | ⟨-, rfl⟩ | ⟨u, -, ⟨hlen, -⟩, rfl⟩ | ⟨-, rfl⟩ | ⟨l, -, rfl⟩ | ⟨v0, v1, -, rfl⟩
  · exact .inr (.inr rfl)
  · rcases hi with rfl | ⟨hint, rfl⟩
    · exact .inl ⟨n, rfl, rfl⟩
    · exact .inr (.inl ⟨n, hint, rfl, rfl⟩)
  · exact .inr (.inr rfl)
  · exact .inr (.inr rfl)
  · exact .inr (.inr hlen)
  · exact .inr (.inr (flushDrain_len s))
  · obtain ⟨u, _, st, v0, ⟨hlen, -⟩, ht, -⟩ := writePayload_drains (s.pay.take l.toNat) (consumePayload l.toNat s)
    rw [ht]
    exact .inr (.inr hlen)
  · exact .inr (.inr rfl)

/-- Settles O18: idle and reserved words keep the registers, and a command does with `LEN` what `exec_len` says. -/
theorem lenChangesOnlyAtBinding : Obligations.LenChangesOnlyAtBinding := by
  intro s t hstep
  rcases step_cases s t hstep with ⟨-, rfl⟩ | ⟨w, rest, hcmd, ⟨e, hdecode, rfl⟩ | ⟨i, hdecode, hexec⟩⟩
  · exact .inr (.inr rfl)
  · exact .inr (.inr rfl)
  · rw [nextInstr_of_decode_ok hcmd hdecode]
    rcases exec_len hexec with ⟨n, rfl, hlen⟩ | ⟨n, hint, rfl, hlen⟩ | hlen
    · exact .inl ⟨n, rfl, hlen⟩
    · exact .inr (.inl ⟨n, hint, rfl, hlen⟩)
    · exact .inr (.inr hlen)

end Sys2Proof.Machine

/-! PROOFS. Which insertions are the same one (`41_put_be.md`, `42_put_le.md`, `43_put64.md`): bits above the count are
ignored, short counts make the selectors and the widths agree, and `PUT.LE` splits into its whole bytes and the rest. -/

namespace Sys2Proof.Machine

/-! ### Bits above the count (`30_encoding.md` R63) -/

theorem masked_eq_of_agree {n : Nat} {v v' : BitVec 32} (h : ∀ j, j < n → v.getLsbD j = v'.getLsbD j) :
    v &&& mask 32 n = v' &&& mask 32 n := by
  apply BitVec.eq_of_getLsbD_eq
  intro j _
  rw [masked_getLsbD, masked_getLsbD]
  by_cases hj : j < n
  · rw [h j hj]
  · simp [hj]

theorem insertBe_eq_of_agree {n : Nat} {v v' : BitVec 32} (h : ∀ j, j < n → v.getLsbD j = v'.getLsbD j) :
    insertBe n v = insertBe n v' := by
  funext s
  rw [insertBe, insertBe, masked_eq_of_agree h]

theorem insertLe_eq_of_agree {n : Nat} {v v' : BitVec 32} (h : ∀ j, j < n → v.getLsbD j = v'.getLsbD j) :
    insertLe n v = insertLe n v' := by
  funext s
  rw [insertLe, insertLe, ← le32_masked n v, masked_eq_of_agree h, le32_masked]

theorem lowHalf_getLsbD (v : BitVec 64) (j : Nat) : (lowHalf v).getLsbD j = (decide (j < 32) && v.getLsbD j) := by
  simp [lowHalf, BitVec.getLsbD_extractLsb']

theorem highHalf_getLsbD (v : BitVec 64) (j : Nat) :
    (highHalf v).getLsbD j = (decide (j < 32) && v.getLsbD (32 + j)) := by
  simp [highHalf, BitVec.getLsbD_extractLsb']

theorem lowHalf_agree {n m : Nat} {v v' : BitVec 64} (h : ∀ j, j < n → v.getLsbD j = v'.getLsbD j) (hm : m ≤ n) :
    ∀ j, j < m → (lowHalf v).getLsbD j = (lowHalf v').getLsbD j := by
  intro j hj
  rw [lowHalf_getLsbD, lowHalf_getLsbD, h j (by omega)]

theorem highHalf_agree {n : Nat} {v v' : BitVec 64} (h : ∀ j, j < n → v.getLsbD j = v'.getLsbD j) :
    ∀ j, j < n - 32 → (highHalf v).getLsbD j = (highHalf v').getLsbD j := by
  intro j hj
  rw [highHalf_getLsbD, highHalf_getLsbD, h (32 + j) (by omega)]

theorem insert64Be_eq_of_agree {n : Nat} {v v' : BitVec 64} (h : ∀ j, j < n → v.getLsbD j = v'.getLsbD j) :
    insert64Be n v = insert64Be n v' := by
  funext s
  unfold insert64Be
  split_ifs with hn
  · rw [insertBe_eq_of_agree (lowHalf_agree h hn.le), insertBe_eq_of_agree (highHalf_agree h)]
  · rw [insertBe_eq_of_agree (lowHalf_agree h (Nat.le_refl n))]

theorem insert64Le_eq_of_agree {n : Nat} {v v' : BitVec 64} (h : ∀ j, j < n → v.getLsbD j = v'.getLsbD j) :
    insert64Le n v = insert64Le n v' := by
  funext s
  unfold insert64Le
  split_ifs with hn
  · rw [insertLe_eq_of_agree (lowHalf_agree h hn.le), insertLe_eq_of_agree (highHalf_agree h)]
  · rw [insertLe_eq_of_agree (lowHalf_agree h (Nat.le_refl n))]

/-- Settles O29: of its value a command uses the insertion alone, and equal low bits give the same insertion. -/
theorem highValueBitsIgnored : Obligations.HighValueBitsIgnored := by
  refine ⟨fun n v v' s h => ⟨?_, ?_⟩, fun n v v' s h => ⟨?_, ?_⟩⟩
  · simp only [exec, execPutBe, insertBe_eq_of_agree h]
  · simp only [exec, execPutLe, insertLe_eq_of_agree h]
  · simp only [exec, execPut64Be, insert64Be_eq_of_agree h]
  · simp only [exec, execPut64Le, insert64Le_eq_of_agree h]

/-! ### Short counts -/

/-- Up to one byte there is nothing to rearrange (`42_put_le.md` R95). -/
theorem insertLe_eq_insertBe_of_le_eight {n : Nat} (hn : n ≤ 8) (v : BitVec 32) : insertLe n v = insertBe n v := by
  refine insertBe_eq_of_agree fun j hj => ?_
  rw [le32_getLsbD n v (by omega)]
  by_cases hr : j < n % 8
  · rw [if_pos hr, show 8 * (n / 8) + j = j by omega]
  · rw [if_neg hr, if_pos hj, show 8 * (n / 8 - 1 - (j - n % 8) / 8) + (j - n % 8) % 8 = j by omega]

/-- Settles O24: both commands answer OK after their insertion, and these are the same. -/
theorem putLeOfAtMostOneByte : Obligations.PutLeOfAtMostOneByte := by
  intro n v s hn
  rw [exec_putLe_of_le (by omega), exec_putBe_of_le (by omega), insertLe_eq_insertBe_of_le_eight hn]

/-- Up to 32 bits a 64-bit insertion takes the low half alone (`43_put64.md` R97). -/
theorem insert64Be_of_le {n : Nat} (hn : n ≤ 32) (v : BitVec 64) (s : State) :
    insert64Be n v s = insertBe n (lowHalf v) s := if_neg (by omega)

/-- Up to 32 bits a 64-bit insertion takes the low half alone (`43_put64.md` R98). -/
theorem insert64Le_of_le {n : Nat} (hn : n ≤ 32) (v : BitVec 64) (s : State) :
    insert64Le n v s = insertLe n (lowHalf v) s := if_neg (by omega)

/-- Settles O27: both commands answer OK after the insertion of the low half. -/
theorem put64OfAtMost32IsPut : Obligations.Put64OfAtMost32IsPut := by
  intro n v s hn
  constructor
  · rw [exec_put64Be_of_le (by omega), exec_putBe_of_le hn, insert64Be_of_le hn]
    rfl
  · rw [exec_put64Le_of_le (by omega), exec_putLe_of_le hn, insert64Le_of_le hn]
    rfl

theorem insertBe_zero {s : State} (hf : s.fill.toNat ≤ 64) (v : BitVec 32) : insertBe 0 v s = s := by
  have hno : v &&& mask 32 0 = 0#32 := by simp [mask]
  rw [insertBe, drainFor_of_fits (by omega), hno]
  simp [appendBits, shl64, zext64]

/-- Settles O28: an insertion of no bits leaves the state (`insertBe_zero`), so the command only answers. -/
theorem insertionOfNoBits : Obligations.InsertionOfNoBits := by
  intro v x i s hf hi
  have hanswer : ∀ y : BitVec 32, Host.Outcome.next (respond .ok 0#36 0#36 (insertBe 0 y s)) =
      (.next { s with cmd := s.cmd.tail, rsp := s.rsp ++ [0#74] } : Host.Outcome State Fault Refusal) := by
    intro y
    rw [insertBe_zero hf, respond_ok_eq]
  rcases hi with rfl | rfl | rfl | rfl
  · exact (exec_putBe_of_le (by decide) v s).trans (hanswer v)
  · exact (exec_putLe_of_le (by decide) v s).trans (hanswer (le32 0 v))
  · exact (exec_put64Be_of_le (by decide) x s).trans (hanswer (lowHalf x))
  · exact (exec_put64Le_of_le (by decide) x s).trans (hanswer (le32 0 (lowHalf x)))

/-! ### `PUT.LE` in two parts (`42_put_le.md` R95) -/

theorem le32_and_mask {n : Nat} (hn : n ≤ 32) (v : BitVec 32) : le32 n v &&& mask 32 n = le32 n v := by
  apply BitVec.eq_of_getLsbD_eq
  intro j _
  rw [masked_getLsbD, le32_getLsbD n v hn]
  by_cases hj : j < n
  · simp [hj]
  · have hr : ¬ j < n % 8 := by omega
    simp [hj, hr]

/-- `PUT_LE` drains as the count asks and places the rearranged bits. -/
theorem insertLe_eq_appendBits {n : Nat} (hn : n ≤ 32) (v : BitVec 32) (s : State) :
    insertLe n v s = appendBits n (le32 n v) (drainFor n s) := by
  rw [insertLe, insertBe, le32_and_mask hn]

/-- The little-endian form is that of the whole bytes above the leftover bits. -/
theorem le32_split {n : Nat} (hn : n ≤ 32) (v : BitVec 32) :
    le32 n v =
      le32 (8 * (n / 8)) v <<< (n % 8) ||| le32 (n % 8) ((v &&& mask 32 n) >>> (8 * (n / 8))) := by
  have hbytes : 8 * (n / 8) / 8 = n / 8 := by omega
  have hrest : 8 * (n / 8) % 8 = 0 := by omega
  have hwhole : le32 (8 * (n / 8)) v = wholeBytesLsbFirst v (n / 8) := by
    rw [le32_eq_wholeBytes_or_leftover (by omega), hbytes, hrest]
    simp [mask]
  have hleft : le32 (n % 8) ((v &&& mask 32 n) >>> (8 * (n / 8))) = shr32 v (8 * (n / 8)) &&& mask 32 (n % 8) := by
    have hnone : n % 8 / 8 = 0 := by omega
    have hshift : (v &&& mask 32 n) >>> (8 * (n / 8)) = shr32 v (8 * (n / 8)) &&& mask 32 (n % 8) := shr32_masked n v
    rw [le32_eq_wholeBytes_or_leftover (by omega), hnone, hshift, Nat.mod_mod]
    simp [wholeBytesLsbFirst, shr32, BitVec.and_assoc]
  rw [hwhole, hleft, le32_eq_wholeBytes_or_leftover hn]

/-- `m` is a number of `n` bits: it has no one bit at place `n` or above. -/
abbrev FitsBits (n : Nat) (m : BitVec 32) : Prop := ∀ j, n ≤ j → m.getLsbD j = false

theorem fitsBits_le32 {n : Nat} (hn : n ≤ 32) (v : BitVec 32) : FitsBits n (le32 n v) := by
  intro j hj
  rw [← le32_and_mask hn v, masked_getLsbD, decide_eq_false (by omega), Bool.false_and]

/-- Two runs of bits placed one after the other are the one run of both. -/
theorem appendBits_appendBits {a r : Nat} {m m' : BitVec 32} {s : State} (hfit : s.fill.toNat + (a + r) ≤ 64)
    (har : a + r ≤ 32) (hm : FitsBits a m) :
    appendBits r m' (appendBits a m s) = appendBits (a + r) (m <<< r ||| m') s := by
  have hfill : (appendBits a m s).fill.toNat = s.fill.toNat + a := appendBits_fill_toNat (by omega)
  have hshift : zext64 m <<< r = zext64 (m <<< r) := by
    apply BitVec.eq_of_getLsbD_eq
    intro j hj
    simp only [zext64, BitVec.getLsbD_shiftLeft, BitVec.getLsbD_setWidth, hj, decide_true, Bool.true_and]
    by_cases hj' : j < 32
    · simp [hj', show j - r < 64 by omega]
    · rw [hm (j - r) (by omega)]
      simp [hj']
  have hplace : 64 - s.fill.toNat - a = r + (64 - s.fill.toNat - (a + r)) := by omega
  have hbelow : 64 - (s.fill.toNat + a) - r = 64 - s.fill.toNat - (a + r) := by omega
  have hor : zext64 (m <<< r ||| m') = zext64 (m <<< r) ||| zext64 m' := BitVec.setWidth_or
  have hcache : s.cache ||| shl64 (zext64 m) (64 - s.fill.toNat - a) ||| shl64 (zext64 m') (64 - (s.fill.toNat + a) - r)
      = s.cache ||| shl64 (zext64 (m <<< r ||| m')) (64 - s.fill.toNat - (a + r)) := by
    rw [shl64, shl64, shl64, hplace, hbelow, hor, ← hshift, BitVec.shiftLeft_add, BitVec.shiftLeft_or_distrib,
      BitVec.or_assoc]
  rw [appendBits, hfill, appendBits_cache, hcache, Nat.add_assoc]
  rfl

theorem advanceIndex_appendBits (d a : Nat) (m : BitVec 32) (s : State) :
    advanceIndex d (appendBits a m s) = appendBits a m (advanceIndex d s) := by
  unfold advanceIndex
  rw [appendBits_index]
  split <;> rfl

/-- `DRAIN32` writes the four oldest bytes of the register, if all four fit (`41_put_be.md` R86). -/
theorem drain32Events_eq_eventsAt (s : State) :
    drain32Events s =
      if s.index.toNat + 4 ≤ s.len.toNat then eventsAt s.index.toNat (oldestBytes 4 s.cache) else [] := rfl

/-- The bits placed leave the `k` oldest bytes alone where these are pending. -/
theorem oldestBytes_appendBits {k a : Nat} {m : BitVec 32} {s : State} (hk : k ≤ 8) (hfull : 8 * k ≤ s.fill.toNat)
    (hfit : s.fill.toNat + a ≤ 64) (hm : FitsBits a m) :
    oldestBytes k (appendBits a m s).cache = oldestBytes k s.cache := by
  refine List.map_congr_left fun j hj => BitVec.eq_of_getLsbD_eq fun i hi => ?_
  have hj : j < k := List.mem_range.1 hj
  have hbelow : (zext64 m).getLsbD (56 - 8 * j + i - (64 - s.fill.toNat - a)) = false := by
    rw [zext64, BitVec.getLsbD_setWidth, hm _ (by omega), Bool.and_false]
  rw [appendBits_cache, BitVec.getLsbD_extractLsb', BitVec.getLsbD_extractLsb', BitVec.getLsbD_or, shl64,
    BitVec.getLsbD_shiftLeft, hbelow, Bool.and_false, Bool.or_false]

/-- Bits placed below the 32 oldest ones are not in their way: draining before and after is the same. -/
theorem drain32_appendBits {a : Nat} {m : BitVec 32} {s : State} (hfull : 32 ≤ s.fill.toNat)
    (hfit : s.fill.toNat + a ≤ 64) (hm : FitsBits a m) :
    drain32 (appendBits a m s) = appendBits a m (drain32 s) := by
  have hevents : drain32Events (appendBits a m s) = drain32Events s := by
    rw [drain32Events_eq_eventsAt, drain32Events_eq_eventsAt, oldestBytes_appendBits (by decide) hfull hfit hm]
    rfl
  have hcache : shl64 (appendBits a m s).cache 32 =
      shl64 s.cache 32 ||| shl64 (zext64 m) (64 - (s.fill.toNat - 32) - a) := by
    rw [appendBits_cache, shl64, shl64, BitVec.shiftLeft_or_distrib, ← BitVec.shiftLeft_add,
      show 64 - s.fill.toNat - a + 32 = 64 - (s.fill.toNat - 32) - a by omega]
    rfl
  have hfill : s.fill.toNat + a - 32 = s.fill.toNat - 32 + a := by omega
  rw [drain32_eq, hevents, hcache, appendBits_fill_toNat hfit, hfill, advanceIndex_appendBits]
  conv_rhs => rw [appendBits, drain32_fill, drain32_eq]
  rfl

/-- Between two runs of together at most 32 bits one drain makes the room, whichever of the two asks for it. -/
theorem drainFor_appendBits_drainFor {a r : Nat} {m : BitVec 32} {s : State} (hf : s.fill.toNat ≤ 64)
    (har : a + r ≤ 32) (hm : FitsBits a m) :
    drainFor r (appendBits a m (drainFor a s)) = appendBits a m (drainFor (a + r) s) := by
  by_cases hfirst : 64 < s.fill.toNat + a
  · have hfill : (appendBits a m (drain32 s)).fill.toNat = s.fill.toNat - 32 + a := by
      rw [appendBits_fill_toNat (by rw [drain32_fill]; omega), drain32_fill]
    rw [drainFor_of_full hfirst, drainFor_of_full (n := a + r) (by omega), drainFor_of_fits (by rw [hfill]; omega)]
  · have hfill : (appendBits a m s).fill.toNat = s.fill.toNat + a := appendBits_fill_toNat (by omega)
    rw [drainFor_of_fits (n := a) (by omega)]
    by_cases hsecond : 64 < s.fill.toNat + (a + r)
    · rw [drainFor_of_full hsecond, drainFor_of_full (by rw [hfill]; omega),
        drain32_appendBits (by omega) (by omega) hm]
    · rw [drainFor_of_fits (n := a + r) (by omega), drainFor_of_fits (by rw [hfill]; omega)]

/-- `PUT_LE` of the whole bytes and then of the leftover bits is `PUT_LE` of all. -/
theorem insertLe_insertLe {n : Nat} (hn : n ≤ 32) (v : BitVec 32) {s : State} (hf : s.fill.toNat ≤ 64) :
    insertLe (n % 8) ((v &&& mask 32 n) >>> (8 * (n / 8))) (insertLe (8 * (n / 8)) v s) = insertLe n v s := by
  have hsum : 8 * (n / 8) + n % 8 = n := by omega
  have hfits : FitsBits (8 * (n / 8)) (le32 (8 * (n / 8)) v) := fitsBits_le32 (by omega) v
  have hroom := drainFor_makes_room hn hf
  rw [insertLe_eq_appendBits (by omega), insertLe_eq_appendBits (by omega), insertLe_eq_appendBits hn,
    drainFor_appendBits_drainFor hf (by omega) hfits,
    appendBits_appendBits (by rw [hsum]; exact hroom) (by omega) hfits, ← le32_split hn, hsum]

/-- Settles O25: an insertion does not see whether a response came before it, and the two insertions are the one
(`insertLe_insertLe`). -/
theorem putLeComposes : Obligations.PutLeComposes := by
  intro n a r v s hn hf ha hr
  have hcompose := insertLe_insertLe hn v hf
  rw [← ha, ← hr] at hcompose
  refine ⟨_, _, _, exec_putLe_of_le hn v s, exec_putLe_of_le (by omega) v s, exec_putLe_of_le (by omega) _ _, ?_⟩
  rw [insertLe_respond, hcompose]
  exact ⟨rfl, rfl, rfl, rfl, rfl, rfl⟩

end Sys2Proof.Machine

/-! PROOFS. What an insertion does to the register (`41_put_be.md` R86 to R91, `43_put64.md`): every insertion command
is a run of big-endian insertions of at most 32 bits each, and each of these drains 32 pending bits or none and then
adds its own. -/

namespace Sys2Proof.Machine

/-! ### The pending bits of the register -/

theorem length_pendingBits (s : State) : (pendingBits s).length = s.fill.toNat := by simp [pendingBits]

theorem pendingBits_getElem? (s : State) (j : Nat) :
    (pendingBits s)[j]? = if j < s.fill.toNat then some (s.cache.getMsbD j) else none := by
  by_cases hj : j < s.fill.toNat <;> simp [pendingBits, hj]

/-- A left-justified register is its pending bits with zeros below. -/
theorem getMsbD_eq_pendingBits {s : State} (hlj : LeftJustified s) (j : Nat) :
    s.cache.getMsbD j = ((pendingBits s)[j]?).getD false := by
  rw [pendingBits_getElem?]
  split_ifs with hj
  · rfl
  · exact getMsbD_of_leftJustified hlj (by omega)

theorem pendingBits_eq_nil {s : State} (h : s.fill.toNat = 0) : pendingBits s = [] := by
  rw [pendingBits, h]
  rfl

/-- Shifting out `k` bits drops the `k` oldest pending ones. -/
theorem pendingBits_of_shift {s t : State} {k : Nat} (hcache : t.cache = s.cache <<< k)
    (hfill : t.fill.toNat = s.fill.toNat - k) : pendingBits t = (pendingBits s).drop k := by
  apply List.ext_getElem?
  intro j
  rw [List.getElem?_drop, pendingBits_getElem?, pendingBits_getElem?, hcache, hfill, BitVec.getMsbD_shiftLeft,
    Nat.add_comm j k]
  exact if_congr (by omega) rfl rfl

/-- `FILL` is at most 64 and `CACHE` is left-justified (`10_state.md` R11, R12). -/
abbrev RegisterWf (s : State) : Prop := s.fill.toNat ≤ 64 ∧ LeftJustified s

/-! ### One insertion of at most 32 bits -/

/-- One drain is enough room for 32 bits. -/
theorem drainCount_of_le {n : Nat} {s : State} (hn : n ≤ 32) (hf : s.fill.toNat ≤ 64) :
    drainCount n s = if 64 < s.fill.toNat + n then 1 else 0 := if_neg (by omega)

theorem drainCount_zero {s : State} (hf : s.fill.toNat ≤ 64) : drainCount 0 s = 0 := by
  rw [drainCount_of_le (by decide) hf, if_neg (by omega)]

theorem drainFor_fill {n : Nat} {s : State} (hn : n ≤ 32) (hf : s.fill.toNat ≤ 64) :
    (drainFor n s).fill.toNat = s.fill.toNat - 32 * drainCount n s := by
  rw [drainCount_of_le hn hf]
  split_ifs with h
  · rw [drainFor_of_full h, drain32_fill]
  · rw [drainFor_of_fits (by omega)]
    omega

theorem pendingBits_drainFor {n : Nat} {s : State} (hn : n ≤ 32) (hf : s.fill.toNat ≤ 64) :
    pendingBits (drainFor n s) = (pendingBits s).drop (32 * drainCount n s) := by
  refine pendingBits_of_shift ?_ (drainFor_fill hn hf)
  rw [drainCount_of_le hn hf]
  split_ifs with h
  · rw [drainFor_of_full h, drain32_cache]
  · rw [drainFor_of_fits (by omega), Nat.mul_zero, BitVec.shiftLeft_zero]

theorem drainFor_index {n : Nat} {s : State} (hn : n ≤ 32) (hf : s.fill.toNat ≤ 64)
    (henv : s.index.toNat + 4 * drainCount n s < Config.indexLimit) :
    (drainFor n s).index.toNat = s.index.toNat + 4 * drainCount n s := by
  rw [drainCount_of_le hn hf] at henv ⊢
  split_ifs at henv ⊢ with h
  · rw [drainFor_of_full h, drain32_index, advanceIndex_index henv]
  · rw [drainFor_of_fits (by omega), Nat.mul_zero, Nat.add_zero]

/-- The new bits stand directly below the pending ones (`41_put_be.md` R87). -/
theorem pendingBits_insertBe {n : Nat} (hn : n ≤ 32) (v : BitVec 32) {s : State} (hs : RegisterWf s) :
    pendingBits (insertBe n v s) = pendingBits (drainFor n s) ++ beBits n v := by
  obtain ⟨hf, hlj⟩ := hs
  have hroom := drainFor_makes_room hn hf
  apply List.ext_getElem?
  intro j
  rw [List.getElem?_append, length_pendingBits, beBits_getElem?, pendingBits_getElem?, pendingBits_getElem?,
    insertBe_fill hn hf]
  by_cases hj : j < (drainFor n s).fill.toNat + n
  · rw [if_pos hj, insertBe_getMsbD hn hf hlj j (by omega)]
    by_cases hold : j < (drainFor n s).fill.toNat
    · rw [if_pos hold, if_pos hold, if_pos hold]
    · rw [if_neg hold, if_neg hold, if_pos hj, if_pos (by omega)]
  · rw [if_neg hj, if_neg (by omega), if_neg (by omega)]

/-! ### An insertion command as a run of such insertions -/

/-- The big-endian insertions an instruction consists of, each a count and a value (`41_put_be.md` R88, `42_put_le.md`
R93, `43_put64.md` R97, R98). -/
def insertionParts : Instr → List (Nat × BitVec 32)
  | .putBe n v => [(n.toNat, v)]
  | .putLe n v => [(n.toNat, le32 n.toNat v)]
  | .put64Be n v =>
    if 32 < n.toNat then [(n.toNat - 32, highHalf v), (32, lowHalf v)] else [(n.toNat, lowHalf v)]
  | .put64Le n v =>
    if 32 < n.toNat then [(32, le32 32 (lowHalf v)), (n.toNat - 32, le32 (n.toNat - 32) (highHalf v))]
    else [(n.toNat, le32 n.toNat (lowHalf v))]
  | _ => []

/-- A run of big-endian insertions. -/
def insertParts : List (Nat × BitVec 32) → State → State
  | [], s => s
  | p :: ps, s => insertParts ps (insertBe p.1 p.2 s)

/-- The bits of a run of big-endian insertions, in stream order. -/
def partsBits (ps : List (Nat × BitVec 32)) : List Bool := ps.flatMap fun p => beBits p.1 p.2

/-- The counts of the parts are those of `PUT.BE`, and together they are at most 64. -/
def PartsFit (ps : List (Nat × BitVec 32)) : Prop := (∀ p ∈ ps, p.1 ≤ 32) ∧ (partsBits ps).length ≤ 64

@[simp] theorem insertParts_nil (s : State) : insertParts [] s = s := rfl

@[simp] theorem insertParts_cons (p : Nat × BitVec 32) (ps : List (Nat × BitVec 32)) (s : State) :
    insertParts (p :: ps) s = insertParts ps (insertBe p.1 p.2 s) := rfl

@[simp] theorem partsBits_nil : partsBits [] = [] := rfl

@[simp] theorem partsBits_cons (p : Nat × BitVec 32) (ps : List (Nat × BitVec 32)) :
    partsBits (p :: ps) = beBits p.1 p.2 ++ partsBits ps := rfl

theorem PartsFit.tail {p : Nat × BitVec 32} {ps : List (Nat × BitVec 32)} (h : PartsFit (p :: ps)) :
    p.1 ≤ 32 ∧ p.1 + (partsBits ps).length ≤ 64 ∧ PartsFit ps := by
  obtain ⟨hcounts, hlength⟩ := h
  rw [partsBits_cons, List.length_append, length_beBits] at hlength
  exact ⟨hcounts p List.mem_cons_self, hlength, fun q hq => hcounts q (List.mem_cons_of_mem _ hq), by omega⟩

/-- A well-formed insertion command runs its parts and answers OK. -/
theorem exec_insertion {i : Instr} (hins : isInsertion i = true) (hwf : i.wellFormed = true) (s : State) :
    exec i s = .next (respond .ok 0#36 0#36 (insertParts (insertionParts i) s)) := by
  cases i with
  | putBe n v => exact exec_putBe_of_le (of_decide_eq_true hwf) v s
  | putLe n v => exact exec_putLe_of_le (of_decide_eq_true hwf) v s
  | put64Be n v =>
    rw [exec_put64Be_of_le (of_decide_eq_true hwf), insertionParts]
    split_ifs with hn
    · rw [insert64Be_of_gt hn]
      rfl
    · rw [insert64Be_of_le (by omega)]
      rfl
  | put64Le n v =>
    rw [exec_put64Le_of_le (of_decide_eq_true hwf), insertionParts]
    split_ifs with hn
    · rw [insert64Le_of_gt hn]
      rfl
    · rw [insert64Le_of_le (by omega)]
      rfl
  | _ => exact absurd hins (by simp [isInsertion])

/-- A count out of range is answered ILLEGAL (log 8). -/
theorem exec_of_not_wellFormed {i : Instr} (hwf : i.wellFormed = false) (s : State) :
    exec i s = .next (illegal s) := by
  cases i with
  | putBe n v | putLe n v | put64Be n v | put64Le n v => exact if_neg (of_decide_eq_false hwf)
  | _ => exact absurd hwf (by simp [Instr.wellFormed])

theorem beBits_lowHalf {n : Nat} (hn : n ≤ 32) (v : BitVec 64) : beBits n (lowHalf v) = beBits n v := by
  refine List.map_congr_left fun j hj => ?_
  have hj : j < n := List.mem_range.1 hj
  rw [lowHalf_getLsbD, decide_eq_true (by omega), Bool.true_and]

/-- Big-endian, the high part comes first (`43_put64.md` R97). -/
theorem beBits_halves {n : Nat} (hn : 32 < n) (hle : n ≤ 64) (v : BitVec 64) :
    beBits (n - 32) (highHalf v) ++ beBits 32 (lowHalf v) = beBits n v := by
  apply List.ext_getElem?
  intro j
  rw [List.getElem?_append, length_beBits, beBits_getElem?, beBits_getElem?, beBits_getElem?, highHalf_getLsbD,
    lowHalf_getLsbD]
  by_cases hhigh : j < n - 32
  · rw [if_pos hhigh, if_pos hhigh, if_pos (by omega), decide_eq_true (by omega), Bool.true_and,
      show 32 + (n - 32 - 1 - j) = n - 1 - j by omega]
  · rw [if_neg hhigh, decide_eq_true (by omega), Bool.true_and, show 32 - 1 - (j - (n - 32)) = n - 1 - j by omega]
    exact if_congr (by omega) rfl rfl

theorem leBits_lowHalf {n : Nat} (hn : n ≤ 32) (v : BitVec 64) : leBits n (lowHalf v) = leBits n v := by
  apply List.ext_getElem?
  intro j
  rw [leBits_getElem?, leBits_getElem?, lowHalf_getLsbD, lowHalf_getLsbD]
  by_cases hj : j < n
  · rw [decide_eq_true (by omega), decide_eq_true (by omega), Bool.true_and, Bool.true_and]
  · rw [if_neg hj, if_neg hj]

/-- Little-endian, the low part comes first (`43_put64.md` R98). -/
theorem leBits_halves {n : Nat} (hn : 32 < n) (hle : n ≤ 64) (v : BitVec 64) :
    leBits 32 (lowHalf v) ++ leBits (n - 32) (highHalf v) = leBits n v := by
  apply List.ext_getElem?
  intro j
  rw [List.getElem?_append, length_leBits, leBits_getElem?, leBits_getElem?, leBits_getElem?]
  simp only [highHalf_getLsbD, lowHalf_getLsbD]
  by_cases hlow : j < 32
  · rw [if_pos hlow, if_pos hlow, if_pos (by omega), if_pos (by omega), if_pos (by omega), decide_eq_true (by omega),
      Bool.true_and]
  · rw [if_neg hlow]
    by_cases hj : j < n
    · rw [if_pos hj, if_pos (by omega)]
      by_cases hwhole : j < 8 * (n / 8)
      · rw [if_pos hwhole, if_pos (by omega), decide_eq_true (by omega), Bool.true_and]
        congr 2
        omega
      · rw [if_neg hwhole, if_neg (by omega), decide_eq_true (by omega), Bool.true_and]
        congr 2
        omega
    · rw [if_neg hj, if_neg (by omega)]

/-- The parts of a well-formed instruction carry the bits it inserts. -/
theorem partsBits_insertionParts {i : Instr} (hwf : i.wellFormed = true) :
    partsBits (insertionParts i) = insertedBits i := by
  cases i with
  | putBe n v =>
    have hn : n.toNat ≤ 32 := of_decide_eq_true hwf
    simp [insertionParts, insertedBits, hn]
  | putLe n v =>
    have hn : n.toNat ≤ 32 := of_decide_eq_true hwf
    simp [insertionParts, insertedBits, hn, beBits_le32]
  | put64Be n v =>
    have hn : n.toNat ≤ 64 := of_decide_eq_true hwf
    rw [insertedBits, if_pos hn, insertionParts]
    split_ifs with hbig
    · simpa using beBits_halves hbig hn v
    · simpa using beBits_lowHalf (by omega) v
  | put64Le n v =>
    have hn : n.toNat ≤ 64 := of_decide_eq_true hwf
    rw [insertedBits, if_pos hn, insertionParts]
    split_ifs with hbig
    · simpa [beBits_le32 (Nat.le_refl 32), beBits_le32 (show n.toNat - 32 ≤ 32 by omega)] using
        leBits_halves hbig hn v
    · simpa [beBits_le32 (show n.toNat ≤ 32 by omega)] using leBits_lowHalf (by omega) v
  | _ => rfl

theorem length_insertedBits_le (i : Instr) : (insertedBits i).length ≤ 64 := by
  cases i with
  | putBe n v | putLe n v | put64Be n v | put64Le n v =>
    rw [insertedBits]
    split_ifs
    · simp
      omega
    · exact Nat.zero_le 64
  | _ => exact Nat.zero_le 64

theorem insertionParts_fit {i : Instr} (hwf : i.wellFormed = true) : PartsFit (insertionParts i) := by
  refine ⟨?_, by rw [partsBits_insertionParts hwf]; exact length_insertedBits_le i⟩
  cases i with
  | putBe n v | putLe n v =>
    have hn : n.toNat ≤ 32 := of_decide_eq_true hwf
    simpa [insertionParts] using hn
  | put64Be n v | put64Le n v =>
    have hn : n.toNat ≤ 64 := of_decide_eq_true hwf
    rw [insertionParts]
    split_ifs with hbig
    · simpa using hn
    · simpa using hbig
  | _ => simp [insertionParts]

/-! ### What a run of insertions does to the register -/

theorem insertParts_registerWf {ps : List (Nat × BitVec 32)} {s : State} (hps : PartsFit ps) (hs : RegisterWf s) :
    RegisterWf (insertParts ps s) := by
  induction ps generalizing s with
  | nil => exact hs
  | cons p ps ih =>
    obtain ⟨hp, -, hps⟩ := hps.tail
    obtain ⟨hlj, hf⟩ := insertBe_leftJustified (v := p.2) hp hs.1 hs.2
    exact ih hps ⟨hf, hlj⟩

/-- Inserting in two steps drains as often as inserting at once. -/
theorem drainCount_add {n m : Nat} (hn : n ≤ 32) (hnm : n + m ≤ 64) (v : BitVec 32) {s : State}
    (hf : s.fill.toNat ≤ 64) : drainCount (n + m) s = drainCount n s + drainCount m (insertBe n v s) := by
  have hfill : (insertBe n v s).fill.toNat = s.fill.toNat - 32 * drainCount n s + n := by
    rw [insertBe_fill hn hf, drainFor_fill hn hf]
  rw [drainCount_of_le hn hf] at hfill ⊢
  unfold drainCount
  split_ifs at hfill ⊢ <;> omega

theorem insertParts_fill {ps : List (Nat × BitVec 32)} {s : State} (hps : PartsFit ps) (hf : s.fill.toNat ≤ 64) :
    (insertParts ps s).fill.toNat + 32 * drainCount (partsBits ps).length s =
      s.fill.toNat + (partsBits ps).length := by
  induction ps generalizing s with
  | nil =>
    simp [drainCount_zero hf]
  | cons p ps ih =>
    obtain ⟨hp, hlength, hps⟩ := hps.tail
    have hroom := drainFor_makes_room hp hf
    have hfill := insertBe_fill (v := p.2) hp hf
    have hdrain := drainFor_fill hp hf
    have hrest := ih hps (s := insertBe p.1 p.2 s) (by omega)
    have hcount := drainCount_of_le hp hf
    rw [insertParts_cons, partsBits_cons, List.length_append, length_beBits, drainCount_add hp hlength p.2 hf]
    split_ifs at hcount <;> omega

theorem insertParts_index {ps : List (Nat × BitVec 32)} {s : State} (hps : PartsFit ps) (hf : s.fill.toNat ≤ 64)
    (henv : s.index.toNat + 4 * drainCount (partsBits ps).length s < Config.indexLimit) :
    (insertParts ps s).index.toNat = s.index.toNat + 4 * drainCount (partsBits ps).length s := by
  induction ps generalizing s with
  | nil =>
    simp [drainCount_zero hf]
  | cons p ps ih =>
    obtain ⟨hp, hlength, hps⟩ := hps.tail
    have hroom := drainFor_makes_room hp hf
    have hfill := insertBe_fill (v := p.2) hp hf
    rw [partsBits_cons, List.length_append, length_beBits, drainCount_add hp hlength p.2 hf] at henv ⊢
    have hindex : (insertBe p.1 p.2 s).index.toNat = s.index.toNat + 4 * drainCount p.1 s := by
      rw [insertBe_index]
      exact drainFor_index hp hf (by omega)
    rw [insertParts_cons, ih hps (by omega) (by omega), hindex]
    omega

/-- After a run of insertions the pending bits are the old ones and then the new ones, without those drained. -/
theorem pendingBits_insertParts {ps : List (Nat × BitVec 32)} {s : State} (hps : PartsFit ps) (hs : RegisterWf s) :
    pendingBits (insertParts ps s) =
      (pendingBits s ++ partsBits ps).drop (32 * drainCount (partsBits ps).length s) := by
  induction ps generalizing s with
  | nil =>
    simp [drainCount_zero hs.1]
  | cons p ps ih =>
    obtain ⟨hp, hlength, hps⟩ := hps.tail
    obtain ⟨hlj, hf⟩ := insertBe_leftJustified (v := p.2) hp hs.1 hs.2
    have hdrained : 32 * drainCount p.1 s ≤ (pendingBits s).length := by
      have hcount := drainCount_of_le hp hs.1
      rw [length_pendingBits]
      split_ifs at hcount <;> omega
    have hpending : pendingBits (insertBe p.1 p.2 s) ++ partsBits ps =
        (pendingBits s ++ partsBits (p :: ps)).drop (32 * drainCount p.1 s) := by
      rw [pendingBits_insertBe hp p.2 hs, pendingBits_drainFor hp hs.1, List.drop_append_of_le_length hdrained,
        partsBits_cons, List.append_assoc]
    rw [insertParts_cons, ih hps ⟨hf, hlj⟩, hpending, List.drop_drop, partsBits_cons, List.length_append, length_beBits,
      drainCount_add hp hlength p.2 hs.1, Nat.mul_add]

/-- Without a drain a run of insertions touches `CACHE` and `FILL` alone. -/
theorem insertParts_of_fits {ps : List (Nat × BitVec 32)} {s : State}
    (hfit : s.fill.toNat + (partsBits ps).length ≤ 64) :
    insertParts ps s = { s with cache := (insertParts ps s).cache, fill := (insertParts ps s).fill } := by
  induction ps generalizing s with
  | nil => rfl
  | cons p ps ih =>
    rw [partsBits_cons, List.length_append, length_beBits] at hfit
    have hplaced : insertBe p.1 p.2 s = appendBits p.1 (p.2 &&& mask 32 p.1) s := by
      rw [insertBe, drainFor_of_fits (by omega)]
    have hrest := ih (s := insertBe p.1 p.2 s) (by rw [hplaced, appendBits_fill_toNat (by omega)]; omega)
    rw [insertParts_cons, hrest, hplaced]
    rfl

/-- Settles O19: the parts of the command run without a drain, so the register holds the pending bits and then the
inserted ones, and no other field but the channels' moves. -/
theorem insertionFitsInRegister : Obligations.InsertionFitsInRegister := by
  intro i s hins hwf hlj hfit
  have hf : s.fill.toNat ≤ 64 := by omega
  have hparts := insertionParts_fit hwf
  have hbits := partsBits_insertionParts hwf
  have hnone : drainCount (insertedBits i).length s = 0 := by
    rw [drainCount, if_neg (by omega), if_neg (by omega)]
  obtain ⟨-, hlj'⟩ := insertParts_registerWf hparts ⟨hf, hlj⟩
  have hpending := pendingBits_insertParts hparts ⟨hf, hlj⟩
  have hfill := insertParts_fill hparts hf
  have hframe := insertParts_of_fits (ps := insertionParts i) (s := s) (by rw [hbits]; exact hfit)
  rw [hbits, hnone, Nat.mul_zero, List.drop_zero] at hpending
  rw [hbits, hnone, Nat.mul_zero, Nat.add_zero] at hfill
  refine ⟨_, exec_insertion hins hwf s, fun j _ => ?_, hfill, ?_⟩
  · rw [respond_cache, getMsbD_eq_pendingBits hlj', hpending, List.getElem?_append, length_pendingBits,
      pendingBits_getElem?]
    split_ifs <;> rfl
  · rw [respond_ok_eq, hframe]

end Sys2Proof.Machine

/-! PROOFS. `PUT.BE` and `PUT.LE` when the bits do not fit in the register (`41_put_be.md` R86, R91), and the padding
that ends an Underflow (`60_exceptions.md` R125). -/

namespace Sys2Proof.Machine

/-! ### The drain of four bytes -/

/-- Both 32-bit insertions are a big-endian one of the bits they insert. -/
theorem exec_put {n : BitVec 8} {v : BitVec 32} {i : Instr} (hi : i = .putBe n v ∨ i = .putLe n v)
    (hn : n.toNat ≤ 32) :
    ∃ x, insertedBits i = beBits n.toNat x ∧
      ∀ s, exec i s = .next (respond .ok 0#36 0#36 (insertBe n.toNat x s)) := by
  rcases hi with rfl | rfl
  · exact ⟨v, if_pos hn, exec_putBe_of_le hn v⟩
  · exact ⟨le32 n.toNat v, (if_pos hn).trans (beBits_le32 hn v).symm, exec_putLe_of_le hn v⟩

/-- What the destination reads as after the `k` oldest bytes of a register are written. -/
theorem read_applyEvents_oldestBytes (m : Memory) (off k : Nat) (c : BitVec 64) (a : Nat) :
    Memory.read (Memory.applyEvents m (eventsAt off (oldestBytes k c))) a =
      if off ≤ a ∧ a < off + k then some (c.extractLsb' (56 - 8 * (a - off)) 8) else Memory.read m a := by
  rw [read_applyEvents_eventsAt, length_oldestBytes]
  exact ite_congr rfl (fun hin => oldestBytes_getElem? (by omega) c) fun _ => rfl

/-- A group of four bytes that does not fit is discarded whole. -/
theorem drain32Events_of_not_fit {s : State} (h : s.len.toNat < s.index.toNat + 4) : drain32Events s = [] :=
  if_neg (by omega)

theorem insertBe_fill_of_full {n : Nat} (hn : n ≤ 32) (v : BitVec 32) {s : State} (hf : s.fill.toNat ≤ 64)
    (hfull : 64 < s.fill.toNat + n) : (insertBe n v s).fill.toNat = s.fill.toNat + n - 32 := by
  rw [insertBe_fill hn hf, drainFor_of_full hfull, drain32_fill]
  omega

/-- After the drain the register holds the pending bits from the 32nd on, then the new bits, then zeros. -/
theorem insertBe_getMsbD_of_full {n : Nat} (hn : n ≤ 32) (v : BitVec 32) {s : State} (hs : RegisterWf s)
    (hfull : 64 < s.fill.toNat + n) (j : Nat) :
    (insertBe n v s).cache.getMsbD j =
      if j < s.fill.toNat - 32 then s.cache.getMsbD (j + 32)
      else ((beBits n v)[j - (s.fill.toNat - 32)]?).getD false := by
  obtain ⟨hlj, -⟩ := insertBe_leftJustified (v := v) hn hs.1 hs.2
  have hcount : drainCount n s = 1 := by rw [drainCount_of_le hn hs.1, if_pos hfull]
  rw [getMsbD_eq_pendingBits hlj, pendingBits_insertBe hn v hs, pendingBits_drainFor hn hs.1, hcount,
    List.getElem?_append, List.length_drop, length_pendingBits, Nat.mul_one]
  split_ifs with hold
  · rw [List.getElem?_drop, Nat.add_comm, ← getMsbD_eq_pendingBits hs.2]
  · rfl

theorem insertBe_index_of_full {n : Nat} (v : BitVec 32) {s : State} (hfull : 64 < s.fill.toNat + n)
    (henv : s.index.toNat + 4 < Config.indexLimit) : (insertBe n v s).index.toNat = s.index.toNat + 4 := by
  rw [insertBe_index, drainFor_of_full hfull, drain32_index, advanceIndex_index henv]

/-- An insertion that drains moves the data path and the destination alone, inside the envelope. -/
theorem insertBe_frame_of_full {n : Nat} (v : BitVec 32) {s : State} (hfull : 64 < s.fill.toNat + n)
    (henv : s.index.toNat + 4 < Config.indexLimit) :
    insertBe n v s = { s with
      cache := (insertBe n v s).cache, fill := (insertBe n v s).fill, index := (insertBe n v s).index,
      dst := (insertBe n v s).dst, dstw := (insertBe n v s).dstw } := by
  rw [insertBe, drainFor_of_full hfull, drain32_eq, advanceIndex_of_lt henv]
  rfl

/-- Outside the envelope nothing is written, and `INDEX` is a free value (log 1). -/
theorem insertBe_frame_beyond {n : Nat} (v : BitVec 32) {s : State} (hfull : 64 < s.fill.toNat + n)
    (hout : Config.indexLimit ≤ s.index.toNat + 4) :
    insertBe n v s = { s with
      cache := (insertBe n v s).cache, fill := (insertBe n v s).fill,
      index := Config.indexBeyondEnvelope s.freeCount, freeCount := s.freeCount + 1 } := by
  have hnone : drain32Events s = [] := drain32Events_of_not_fit (s.len.isLt.trans_le hout)
  rw [insertBe, drainFor_of_full hfull, drain32_eq, advanceIndex_of_ge hout, hnone, List.append_nil]
  rfl

/-- Settles O20: the registers as in the lemmas on an insertion that drains, the writes as `DRAIN32` records them. -/
theorem putDrainsFourBytes : Obligations.PutDrainsFourBytes := by
  intro n v i s hi hn hf hlj hfull henv
  obtain ⟨x, hbits, hexec⟩ := exec_put hi hn
  refine ⟨_, hexec s, insertBe_fill_of_full hn x hf hfull, insertBe_index_of_full x hfull henv, fun j _ => ?cache,
    ?writes, ?frame⟩
  case cache =>
    rw [hbits]
    exact insertBe_getMsbD_of_full hn x ⟨hf, hlj⟩ hfull j
  case writes =>
    rw [respond_dst, respond_dstw, insertBe_dst, insertBe_dstw, drainFor_of_full hfull, drain32_dst, drain32_dstw,
      drain32Events_eq_eventsAt]
    split_ifs with hfits
    · exact ⟨read_applyEvents_oldestBytes s.dst s.index.toNat 4 s.cache, rfl⟩
    · exact ⟨rfl, List.append_nil _⟩
  case frame =>
    rw [respond_ok_eq, insertBe_frame_of_full x hfull henv]

/-- Settles O21: outside the envelope the four bytes cannot fit, since `LEN` is below 2^32. -/
theorem putBeyondEnvelopeCompletes : Obligations.PutBeyondEnvelopeCompletes := by
  intro n v i s hi hn hf hfull hout
  obtain ⟨x, hbits, hexec⟩ := exec_put hi hn
  have hframe := insertBe_frame_beyond x hfull hout
  refine ⟨_, hexec s, insertBe_fill_of_full hn x hf hfull, ?index, fun hlj j _ => ?cache, ?frame⟩
  case index => rw [respond_index, hframe]
  case cache =>
    rw [hbits]
    exact insertBe_getMsbD_of_full hn x ⟨hf, hlj⟩ hfull j
  case frame => rw [respond_ok_eq, hframe]

/-- Settles O30: the drain leaves `INDEX` past `LEN`, where a `FLUSH` answers OVERFLOW (`flushDrain_beyond`). -/
theorem discardedDrainIsTrueOverflow : Obligations.DiscardedDrainIsTrueOverflow := by
  intro n v i s hi hn hf hfull hnofit henv
  obtain ⟨x, -, hexec⟩ := exec_put hi hn
  have hindex := insertBe_index_of_full x hfull henv
  have hfill := insertBe_fill_of_full hn x hf hfull
  have hpast : (respond .ok 0#36 0#36 (insertBe n.toNat x s)).len.toNat <
      (respond .ok 0#36 0#36 (insertBe n.toNat x s)).index.toNat := by
    rw [respond_len, respond_index, insertBe_len, hindex]
    exact hnofit
  refine ⟨_, _, hexec s, ?dst, insertBe_len n.toNat x s, ?toolong, ?position, hpast, exec_flush _, ?overflow⟩
  case dst =>
    rw [respond_dst, insertBe_dst, drainFor_of_full hfull, drain32_dst, drain32Events_of_not_fit hnofit,
      Memory.applyEvents_nil]
  case toolong =>
    unfold position
    omega
  case position =>
    unfold position
    rw [respond_index, respond_fill, hindex, hfill]
    omega
  case overflow =>
    obtain ⟨hst, -⟩ := flushDrain_beyond hpast
    rw [respond_rsp, hst, flushDrain_rsp, responseWord_overflow]

/-! ### Padding after an Underflow -/

theorem statusCode_injective : Function.Injective statusCode := by
  intro st st'
  cases st <;> cases st' <;> decide

theorem responseWord_status_inj {st st' : Status} {v0 v1 v0' v1' : BitVec 36}
    (h : responseWord st v0 v1 = responseWord st' v0' v1') : st = st' := by
  have hcode := congrArg rspStatus h
  rw [rspStatus_responseWord, rspStatus_responseWord] at hcode
  exact statusCode_injective hcode

/-- The response of a `FLUSH` names its status. -/
theorem flushStatus_of_response {s t : State} {st : Status} (hexec : exec .flush s = .next t)
    (hr : t.rsp = s.rsp ++ [responseWord st 0#36 0#36]) :
    flushStatus (flushDrain s) = st ∧ t = respond st 0#36 0#36 (flushDrain s) := by
  obtain rfl := Host.Outcome.next.inj ((exec_flush s).symm.trans hexec)
  rw [respond_rsp, flushDrain_rsp, List.append_cancel_left_eq] at hr
  have hst := responseWord_status_inj (List.singleton_inj.1 hr)
  exact ⟨hst, by rw [hst]⟩

theorem flushStatus_eq_ok_iff (s : State) : flushStatus (flushDrain s) = .ok ↔ FlushSucceeds s := by
  have hpos : position s = s.index.toNat * 8 + s.fill.toNat := rfl
  rw [flushStatus_flushDrain, FlushSucceeds]
  split_ifs with hover hwhole
  · exact ⟨nofun, fun _ => by omega⟩
  · exact ⟨fun _ => by omega, fun _ => rfl⟩
  · exact ⟨nofun, fun _ => by omega⟩

theorem flushStatus_eq_underflow_iff (s : State) :
    flushStatus (flushDrain s) = .underflow ↔ position s % 8 ≠ 0 ∧ position s ≤ 8 * s.len.toNat := by
  have hpos : position s = s.index.toNat * 8 + s.fill.toNat := rfl
  rw [flushStatus_flushDrain]
  split_ifs with hover hwhole
  · exact ⟨nofun, fun _ => by omega⟩
  · exact ⟨nofun, fun _ => by omega⟩
  · exact ⟨fun _ => by omega, fun _ => rfl⟩

/-- A `FLUSH` of whole bytes that fit answers OK and leaves nothing pending. -/
theorem exec_flush_of_succeeds {s : State} (h : FlushSucceeds s) :
    exec .flush s = .next (respond .ok 0#36 0#36 (flushDrain s)) ∧ (flushDrain s).fill = 0#7 := by
  obtain ⟨hwhole, hfits⟩ := h
  obtain ⟨-, -, hfill⟩ := flushDrain_of_fits hfits
  refine ⟨?_, BitVec.eq_of_toNat_eq (hfill.trans hwhole)⟩
  rw [exec_flush, (flushStatus_eq_ok_iff s).2 ⟨hwhole, hfits⟩]

/-- Settles O33: after an Underflow the bits of one byte are pending and that byte still fits; the padding completes it
without a drain, and the stream is then of whole bytes that fit. -/
theorem paddingRecoversFromUnderflow : Obligations.PaddingRecoversFromUnderflow := by
  intro s t n v i hf hflush hrsp hn hi
  rw [← responseWord_underflow] at hrsp
  obtain ⟨hst, ht⟩ := flushStatus_of_response hflush hrsp
  obtain ⟨hpart, hfits⟩ := (flushStatus_eq_underflow_iff s).1 hst
  obtain ⟨-, hindex, hfill⟩ := flushDrain_of_fits hfits
  have hindex' : t.index.toNat = position s / 8 := by rw [ht, respond_index, hindex]
  have hfill' : t.fill.toNat = position s % 8 := by rw [ht, respond_fill, hfill]
  have hlen : t.len = s.len := by rw [ht, respond_len, flushDrain_len]
  obtain ⟨x, -, hexec⟩ := exec_put hi (by omega)
  have hroom : t.fill.toNat + n.toNat ≤ 64 := by omega
  have hpos : position (respond .ok 0#36 0#36 (insertBe n.toNat x t)) = 8 * (position s / 8) + 8 := by
    rw [position, respond_index, respond_fill, insertBe_index, insertBe_fill (by omega) (by omega),
      drainFor_of_fits hroom, hindex', hfill']
    omega
  have hok : FlushSucceeds (respond .ok 0#36 0#36 (insertBe n.toNat x t)) := by
    rw [FlushSucceeds, hpos, respond_len, insertBe_len, hlen]
    omega
  obtain ⟨hflush', hempty⟩ := exec_flush_of_succeeds hok
  refine ⟨_, _, hexec t, hflush', ?_, hempty⟩
  rw [respond_rsp, flushDrain_rsp, responseWord_ok]

end Sys2Proof.Machine

/-! PROOFS. `WRB` (`45_write_bytes.md` R105, R106): the wait for the payload, the flush that fails, and the copy after
the flush that succeeds, inside the envelope and beyond it. -/

namespace Sys2Proof.Machine

/-! ### Waiting, and the failing flush -/

/-- Settles O37: a `WRB` short of payload is the first branch of its meaning. -/
theorem wrbWaitsForItsPayload : Obligations.WrbWaitsForItsPayload := fun _ _ hshort => if_pos hshort

theorem exec_wrb_of_paid {l : BitVec 32} {s : State} (hpay : l.toNat ≤ s.pay.length) :
    exec (.wrb l) s = .next (writePayload (s.pay.take l.toNat) (consumePayload l.toNat s)) := if_neg (by omega)

/-- Taking the payload off its channel does not concern the flush. -/
theorem flushDrain_consumePayload (l : Nat) (s : State) :
    flushDrain (consumePayload l s) = consumePayload l (flushDrain s) := by
  rw [flushDrain_eq, flushDrain_eq]
  rfl

/-- A `WRB` whose flush fails is that flush with the payload dropped (`45_write_bytes.md` R105). -/
theorem exec_wrb_of_flush_fails {l : BitVec 32} {s : State} (hpay : l.toNat ≤ s.pay.length)
    (hfail : ¬ FlushSucceeds s) :
    exec (.wrb l) s = exec .flush (consumePayload l.toNat s) := by
  have hst : flushStatus (flushDrain (consumePayload l.toNat s)) ≠ .ok := mt (flushStatus_eq_ok_iff _).1 hfail
  rw [exec_wrb_of_paid hpay, writePayload_of_error hst, exec_flush]

/-- Settles O36: the status of the failing flush is neither OK nor ILLEGAL. -/
theorem wrbPropagatesFlushError : Obligations.WrbPropagatesFlushError := by
  intro l s hpay hfail
  have hexec := exec_wrb_of_flush_fails hpay hfail
  have hst : flushStatus (flushDrain (consumePayload l.toNat s)) ≠ .ok := mt (flushStatus_eq_ok_iff _).1 hfail
  have hill := flushStatus_ne_illegal (flushDrain (consumePayload l.toNat s))
  refine ⟨hexec, _, responseWord (flushStatus (flushDrain (consumePayload l.toNat s))) 0#36 0#36,
    hexec.trans (exec_flush _), ?_, rspV0_responseWord _ _ _, ?_⟩
  · rw [respond_rsp, flushDrain_rsp, consumePayload_rsp]
  · rw [rspStatus_responseWord]
    revert hst hill
    cases flushStatus (flushDrain (consumePayload l.toNat s)) <;> simp [statusCode]

/-! ### The copy -/

@[simp] theorem copyPayload_cache (p : List Byte) (s : State) : (copyPayload p s).cache = s.cache := by
  simp [copyPayload_eq]
@[simp] theorem copyPayload_fill (p : List Byte) (s : State) : (copyPayload p s).fill = s.fill := by
  simp [copyPayload_eq]
@[simp] theorem copyPayload_len (p : List Byte) (s : State) : (copyPayload p s).len = s.len := by
  simp [copyPayload_eq]
@[simp] theorem copyPayload_index (p : List Byte) (s : State) :
    (copyPayload p s).index = (advanceIndex p.length s).index := by
  rw [copyPayload_eq]
@[simp] theorem copyPayload_freeCount (p : List Byte) (s : State) :
    (copyPayload p s).freeCount = (advanceIndex p.length s).freeCount := by
  rw [copyPayload_eq]
@[simp] theorem copyPayload_dst (p : List Byte) (s : State) :
    (copyPayload p s).dst =
      Memory.applyEvents s.dst (eventsAt s.index.toNat (p.take (bytesThatFit p.length s))) := by
  rw [copyPayload_eq]
@[simp] theorem copyPayload_dstw (p : List Byte) (s : State) :
    (copyPayload p s).dstw = s.dstw ++ eventsAt s.index.toNat (p.take (bytesThatFit p.length s)) := by
  rw [copyPayload_eq]

/-- The copy touches neither the register nor the channels other than `DSTW`. -/
theorem copyPayload_frame (p : List Byte) (s : State) :
    copyPayload p s = { s with
      index := (copyPayload p s).index, dst := (copyPayload p s).dst, dstw := (copyPayload p s).dstw,
      freeCount := (copyPayload p s).freeCount } := by
  rw [copyPayload_eq]
  unfold advanceIndex
  split <;> rfl

theorem copyPayload_nil (s : State) : copyPayload [] s = s := by
  rw [copyPayload_eq, List.length_nil, advanceIndex_zero, List.take_nil]
  simp [eventsAt]

theorem copyPayload_consumePayload (p : List Byte) (l : Nat) (s : State) :
    copyPayload p (consumePayload l s) = consumePayload l (copyPayload p s) := by
  rw [copyPayload_eq, copyPayload_eq]
  unfold advanceIndex
  rw [consumePayload_index]
  split <;> rfl

/-- How many payload bytes a `WRB` of `l` bytes copies after a flush that succeeds: those that fit above the flushed
stream (`45_write_bytes.md` R105, step 3). -/
def wrbCopied (l : BitVec 32) (s : State) : Nat := min l.toNat (s.len.toNat - position s / 8)

theorem wrbCopied_le (l : BitVec 32) (s : State) : wrbCopied l s ≤ l.toNat := Nat.min_le_left _ _

/-- The state of a `WRB` after its flush and its copy, before the answer. -/
def wrbCopy (l : BitVec 32) (s : State) : State :=
  consumePayload l.toNat (copyPayload (s.pay.take l.toNat) (flushDrain s))

theorem length_payload {l : BitVec 32} {s : State} (hpay : l.toNat ≤ s.pay.length) :
    (s.pay.take l.toNat).length = l.toNat := by
  rw [List.length_take, Nat.min_eq_left hpay]

theorem bytesThatFit_flushDrain {s : State} (hok : FlushSucceeds s) (l : BitVec 32) :
    bytesThatFit l.toNat (flushDrain s) = wrbCopied l s := by
  obtain ⟨-, hindex, -⟩ := flushDrain_of_fits hok.2
  rw [bytesThatFit, flushDrain_len, hindex, wrbCopied]

/-- The payload bytes that are copied. -/
theorem take_payload {l : BitVec 32} {s : State} :
    (s.pay.take l.toNat).take (wrbCopied l s) = s.pay.take (wrbCopied l s) := by
  rw [List.take_take, Nat.min_eq_left (wrbCopied_le l s)]

/-- A `WRB` with its payload there, after a flush that succeeds. -/
theorem exec_wrb_of_flush_succeeds {l : BitVec 32} {s : State} (hpay : l.toNat ≤ s.pay.length) (hok : FlushSucceeds s) :
    exec (.wrb l) s = .next (respond (copyStatus (wrbCopied l s) l.toNat) (BitVec.ofNat 36 (wrbCopied l s)) 0#36
      (wrbCopy l s)) := by
  have hst : flushStatus (flushDrain (consumePayload l.toNat s)) = .ok := (flushStatus_eq_ok_iff _).2 hok
  have hfit : bytesThatFit l.toNat (consumePayload l.toNat (flushDrain s)) = wrbCopied l s :=
    bytesThatFit_flushDrain hok l
  rw [exec_wrb_of_paid hpay, writePayload_of_ok hst, length_payload hpay, flushDrain_consumePayload, hfit,
    copyPayload_consumePayload]
  rfl

/-- Settles O38: with no bytes the payload is there, the copy is none and its status OK. -/
theorem wrbOfNoBytesIsFlush : Obligations.WrbOfNoBytesIsFlush := by
  intro s
  have hpay : (0#32).toNat ≤ s.pay.length := Nat.zero_le _
  by_cases hok : FlushSucceeds s
  · obtain ⟨hflush, -⟩ := exec_flush_of_succeeds hok
    have hnone : wrbCopied 0#32 s = 0 := Nat.zero_min _
    have hcopy : wrbCopy 0#32 s = flushDrain s := congrArg (consumePayload 0) (copyPayload_nil (flushDrain s))
    rw [exec_wrb_of_flush_succeeds hpay hok, hnone, hcopy, hflush]
    rfl
  · exact exec_wrb_of_flush_fails hpay hok

/-! ### The registers, the bytes and the answer of a copy -/

theorem wrbCopy_fill {l : BitVec 32} {s : State} (hok : FlushSucceeds s) : (wrbCopy l s).fill = 0#7 := by
  rw [wrbCopy, consumePayload_fill, copyPayload_fill]
  exact (exec_flush_of_succeeds hok).2

theorem wrbCopy_cache {l : BitVec 32} {s : State} (hok : FlushSucceeds s) :
    (wrbCopy l s).cache = s.cache <<< s.fill.toNat := by
  obtain ⟨hwhole, hfits⟩ := hok
  obtain ⟨hcount, -, -⟩ := flushDrain_of_fits hfits
  have hpos : position s = s.index.toNat * 8 + s.fill.toNat := rfl
  rw [wrbCopy, consumePayload_cache, copyPayload_cache, flushDrain_cache, hcount,
    show 8 * (s.fill.toNat / 8) = s.fill.toNat by omega]

theorem wrbCopy_index {l : BitVec 32} {s : State} (hpay : l.toNat ≤ s.pay.length) (hok : FlushSucceeds s)
    (henv : position s / 8 + l.toNat < Config.indexLimit) : (wrbCopy l s).index.toNat = position s / 8 + l.toNat := by
  obtain ⟨-, hindex, -⟩ := flushDrain_of_fits hok.2
  rw [wrbCopy, consumePayload_index, copyPayload_index, length_payload hpay,
    advanceIndex_index (by rw [hindex]; exact henv), hindex]

theorem wrbCopy_freeCount {l : BitVec 32} {s : State} (hpay : l.toNat ≤ s.pay.length) (hok : FlushSucceeds s)
    (henv : position s / 8 + l.toNat < Config.indexLimit) : (wrbCopy l s).freeCount = s.freeCount := by
  obtain ⟨-, hindex, -⟩ := flushDrain_of_fits hok.2
  rw [wrbCopy, consumePayload_freeCount, copyPayload_freeCount, length_payload hpay,
    advanceIndex_freeCount (by rw [hindex]; exact henv), flushDrain_freeCount]

/-- Beyond the envelope `INDEX` is the next free value (log 1). -/
theorem wrbCopy_beyond {l : BitVec 32} {s : State} (hpay : l.toNat ≤ s.pay.length) (hok : FlushSucceeds s)
    (hout : Config.indexLimit ≤ position s / 8 + l.toNat) :
    (wrbCopy l s).index = Config.indexBeyondEnvelope s.freeCount ∧ (wrbCopy l s).freeCount = s.freeCount + 1 := by
  obtain ⟨-, hindex, -⟩ := flushDrain_of_fits hok.2
  rw [wrbCopy, consumePayload_index, consumePayload_freeCount, copyPayload_index, copyPayload_freeCount,
    length_payload hpay, advanceIndex_of_ge (by rw [hindex]; exact hout), flushDrain_freeCount]
  exact ⟨rfl, rfl⟩

/-- The pending bytes stand from `INDEX` on, and the copied payload bytes directly above them. -/
theorem read_wrbCopy {l : BitVec 32} {s : State} (hf : s.fill.toNat ≤ 64) (hpay : l.toNat ≤ s.pay.length)
    (hok : FlushSucceeds s) (a : Nat) :
    Memory.read (wrbCopy l s).dst a =
      if s.index.toNat ≤ a ∧ a < position s / 8 then some (s.cache.extractLsb' (56 - 8 * (a - s.index.toNat)) 8)
      else if position s / 8 ≤ a ∧ a < position s / 8 + wrbCopied l s then s.pay[a - position s / 8]?
      else Memory.read s.dst a := by
  obtain ⟨-, hindex, -⟩ := flushDrain_of_fits hok.2
  have hlength : (s.pay.take (wrbCopied l s)).length = wrbCopied l s := by
    rw [List.length_take, Nat.min_eq_left ((wrbCopied_le l s).trans hpay)]
  rw [wrbCopy, consumePayload_dst, copyPayload_dst, length_payload hpay, bytesThatFit_flushDrain hok, take_payload,
    hindex, read_applyEvents_eventsAt, hlength, read_flushDrain_dst hf, hindex]
  by_cases hcopied : position s / 8 ≤ a ∧ a < position s / 8 + wrbCopied l s
  · rw [if_pos hcopied, if_neg (by omega), if_pos hcopied, List.getElem?_take_of_lt (by omega)]
  · rw [if_neg hcopied, if_neg hcopied]

/-- The write events: one per pending byte, then one per copied byte, ascending (`20_memory.md` R33, R45). -/
theorem wrbCopy_dstw {l : BitVec 32} {s : State} (hf : s.fill.toNat ≤ 64) (hpay : l.toNat ≤ s.pay.length)
    (hok : FlushSucceeds s) :
    (wrbCopy l s).dstw = s.dstw ++ eventsAt s.index.toNat (oldestBytes (position s / 8 - s.index.toNat) s.cache) ++
      eventsAt (position s / 8) (s.pay.take (wrbCopied l s)) := by
  obtain ⟨-, hindex, -⟩ := flushDrain_of_fits hok.2
  rw [wrbCopy, consumePayload_dstw, copyPayload_dstw, length_payload hpay, bytesThatFit_flushDrain hok, take_payload,
    hindex, flushDrain_dstw_eq_oldestBytes hf, ← flushDrain_index_sub, hindex]

/-- A copy moves the data path, the destination and `PAY`, and draws free values beyond the envelope. -/
theorem wrbCopy_frame (l : BitVec 32) (s : State) :
    wrbCopy l s = { s with
      cache := (wrbCopy l s).cache, fill := (wrbCopy l s).fill, index := (wrbCopy l s).index,
      dst := (wrbCopy l s).dst, dstw := (wrbCopy l s).dstw, pay := s.pay.drop l.toNat,
      freeCount := (wrbCopy l s).freeCount } := by
  rw [wrbCopy, copyPayload_frame, flushDrain_eq]
  rfl

/-- All bytes were copied exactly when they fit above the flushed stream. -/
theorem copyStatus_wrbCopied {l : BitVec 32} {s : State} (hok : FlushSucceeds s) :
    copyStatus (wrbCopied l s) l.toNat = if position s / 8 + l.toNat ≤ s.len.toNat then .ok else .overflow := by
  obtain ⟨-, hfits⟩ := hok
  unfold copyStatus wrbCopied
  exact if_congr (by omega) rfl rfl

theorem toNat_wrbCopied (l : BitVec 32) (s : State) : (BitVec.ofNat 36 (wrbCopied l s)).toNat = wrbCopied l s := by
  have hle := wrbCopied_le l s
  rw [BitVec.toNat_ofNat, Nat.mod_eq_of_lt (by omega)]

/-- Settles O34, by the lemmas on `wrbCopy`. -/
theorem wrbCopiesPayload : Obligations.WrbCopiesPayload := by
  intro l s hf hlj hpay hok henv
  refine ⟨_, exec_wrb_of_flush_succeeds hpay hok, (wrbCopy_cache hok).trans hlj, wrbCopy_fill hok,
    wrbCopy_index hpay hok henv, congrArg State.pay (wrbCopy_frame l s), read_wrbCopy hf hpay hok,
    wrbCopy_dstw hf hpay hok, ?answer, ?frame⟩
  case answer =>
    refine ⟨responseWord (copyStatus (wrbCopied l s) l.toNat) (BitVec.ofNat 36 (wrbCopied l s)) 0#36, ?_, ?_, ?_,
      rspV1_responseWord _ _ _⟩
    · rw [respond_rsp, wrbCopy_frame]
    · rw [rspStatus_responseWord, copyStatus_wrbCopied hok]
      split_ifs <;> rfl
    · rw [rspV0_responseWord, toNat_wrbCopied, wrbCopied]
  case frame =>
    rw [respond, wrbCopy_frame, wrbCopy_freeCount hpay hok henv]

/-- Settles O35: the bytes and the events are those inside the envelope, `LEN` bounds the copy, and `INDEX` is the free
value of `wrbCopy_beyond`. -/
theorem wrbBeyondEnvelopeCompletes : Obligations.WrbBeyondEnvelopeCompletes := by
  intro l s hf hpay hok hout
  obtain ⟨hindex, hfree⟩ := wrbCopy_beyond hpay hok hout
  have hlen := s.len.isLt
  have hfits := hok.2
  have hcopied : wrbCopied l s = s.len.toNat - position s / 8 := Nat.min_eq_right (by omega)
  have htop : position s / 8 + wrbCopied l s = s.len.toNat := by omega
  have hcache := wrbCopy_cache (l := l) hok
  have hread := read_wrbCopy hf hpay hok
  have hdstw := wrbCopy_dstw hf hpay hok
  rw [htop] at hread
  rw [hcopied] at hdstw
  refine ⟨_, responseWord .overflow (BitVec.ofNat 36 (wrbCopied l s)) 0#36, exec_wrb_of_flush_succeeds hpay hok, hindex,
    hcache, hcache.trans, hread, hdstw, rspStatus_responseWord _ _ _, ?number, rspV1_responseWord _ _ _, ?frame⟩
  case number => rw [rspV0_responseWord, toNat_wrbCopied, hcopied]
  case frame =>
    rw [respond, copyStatus_wrbCopied hok, if_neg (by omega), wrbCopy_frame, wrbCopy_fill hok, hfree]

end Sys2Proof.Machine

/-! PROOFS. What every command does to the registers: the invariant of the machine (`10_state.md` R11, R12), how far
`INDEX` moves (R15), and that an Overflow stays (`60_exceptions.md` R126). -/

namespace Sys2Proof.Machine

/-! ### The effect of a command -/

/-- Everything a command can do, in terms of the named operations. -/
inductive Effect (s : State) : Instr → State → Prop
  /-- `INIT`, `INITH` and `RESET`; the last binds to the same length. -/
  | bind {i : Instr} (n : BitVec 32) (hstart : startsStream i = true) :
      Effect s i (respond .ok 0#36 0#36 (bindDestination n s))
  /-- An insertion with its count in range. -/
  | insertion {i : Instr} (hins : isInsertion i = true) (hwf : i.wellFormed = true) :
      Effect s i (respond .ok 0#36 0#36 (insertParts (insertionParts i) s))
  /-- An insertion with its count out of range. -/
  | illFormed {i : Instr} (hins : isInsertion i = true) (hwf : i.wellFormed = false) : Effect s i (illegal s)
  | flush : Effect s .flush (respond (flushStatus (flushDrain s)) 0#36 0#36 (flushDrain s))
  /-- A `WRB` short of payload. -/
  | wait {l : BitVec 32} (hshort : s.pay.length < l.toNat) : Effect s (.wrb l) s
  /-- A `WRB` whose flush fails. -/
  | propagate {l : BitVec 32} (hpay : l.toNat ≤ s.pay.length) (hfail : ¬ FlushSucceeds s) :
      Effect s (.wrb l)
        (respond (flushStatus (flushDrain s)) 0#36 0#36 (consumePayload l.toNat (flushDrain s)))
  /-- A `WRB` whose flush succeeds. -/
  | copy {l : BitVec 32} (hpay : l.toNat ≤ s.pay.length) (hok : FlushSucceeds s) :
      Effect s (.wrb l)
        (respond (copyStatus (wrbCopied l s) l.toNat) (BitVec.ofNat 36 (wrbCopied l s)) 0#36 (wrbCopy l s))
  /-- `POS`, `REM` and `TAIL`. -/
  | query {i : Instr} (v0 v1 : BitVec 36) (hi : i = .pos ∨ i = .rem ∨ i = .tail) : Effect s i (respond .ok v0 v1 s)

theorem insertion_effect {i : Instr} {s t : State} (hins : isInsertion i = true) (h : exec i s = .next t) :
    Effect s i t := by
  cases hwf : i.wellFormed with
  | true =>
    rw [exec_insertion hins hwf] at h
    exact Host.Outcome.next.inj h ▸ .insertion hins hwf
  | false =>
    rw [exec_of_not_wellFormed hwf] at h
    exact Host.Outcome.next.inj h ▸ .illFormed hins hwf

theorem wrb_effect {l : BitVec 32} {s t : State} (h : exec (.wrb l) s = .next t) : Effect s (.wrb l) t := by
  by_cases hshort : s.pay.length < l.toNat
  · rw [wrbWaitsForItsPayload l s hshort] at h
    exact Host.Outcome.next.inj h ▸ .wait hshort
  · have hpay : l.toNat ≤ s.pay.length := by omega
    by_cases hok : FlushSucceeds s
    · rw [exec_wrb_of_flush_succeeds hpay hok] at h
      exact Host.Outcome.next.inj h ▸ .copy hpay hok
    · rw [exec_wrb_of_flush_fails hpay hok, exec_flush, flushDrain_consumePayload] at h
      exact Host.Outcome.next.inj h ▸ .propagate hpay hok

theorem exec_effect {i : Instr} {s t : State} (h : exec i s = .next t) : Effect s i t := by
  cases i with
  | init n | inith n hint => exact Host.Outcome.next.inj h ▸ .bind n rfl
  | reset => exact Host.Outcome.next.inj h ▸ .bind s.len rfl
  | putBe n v | putLe n v | put64Be n v | put64Le n v => exact insertion_effect rfl h
  | flush => exact Host.Outcome.next.inj h ▸ .flush
  | wrb l => exact wrb_effect h
  | pos | rem | tail => exact Host.Outcome.next.inj h ▸ .query _ _ (by simp)

/-! ### The invariant -/

theorem registerWf_of_empty {s : State} (hfill : s.fill = 0#7) (hcache : s.cache = 0#64) : RegisterWf s := by
  rw [RegisterWf, LeftJustified, hfill, hcache]
  decide

theorem flushDrain_registerWf {s : State} (hs : RegisterWf s) : RegisterWf (flushDrain s) := by
  obtain ⟨hf, hlj⟩ := hs
  have hcount : 8 * flushCount s ≤ s.fill.toNat := by
    unfold flushCount
    omega
  rw [RegisterWf, LeftJustified, flushDrain_fill, flushDrain_cache]
  exact ⟨by omega, leftJustified_shift hlj hcount⟩

/-- Every command keeps `FILL` within 64 and `CACHE` left-justified. -/
theorem exec_registerWf {i : Instr} {s t : State} (hs : RegisterWf s) (h : exec i s = .next t) : RegisterWf t := by
  cases exec_effect h with
  | bind n hstart => exact registerWf_of_empty rfl rfl
  | insertion hins hwf => exact insertParts_registerWf (insertionParts_fit hwf) hs
  | illFormed | wait | query => exact hs
  | flush | propagate => exact flushDrain_registerWf hs
  | copy hpay hok => exact registerWf_of_empty (wrbCopy_fill hok) ((wrbCopy_cache hok).trans hs.2)

/-- What events below `LEN` make of a canonical destination is canonical, with offsets of at most 32 bits. -/
theorem WritesInBounds.dst_wf {s t : State} (h : WritesInBounds s t) (hwf : Memory.wf s.dst)
    (hbound : ∀ c ∈ s.dst, c.1 < 4294967296) : Memory.wf t.dst ∧ ∀ c ∈ t.dst, c.1 < 4294967296 := by
  obtain ⟨ev, -, hdst, hev⟩ := h
  rw [hdst]
  refine ⟨Memory.wf_applyEvents ev hwf, fun c hc => ?_⟩
  rcases Memory.mem_applyEvents hc with hnew | hold
  · exact (hev c hnew).trans s.len.isLt
  · exact hbound c hold

/-- Settles O41: the register by the effects of the commands (`exec_registerWf`), the destination because every write
is an event below `LEN` (`writesAreEventsInBounds`). -/
theorem stepKeepsInvariant : Obligations.StepKeepsInvariant := by
  intro s t ⟨hf, hlj, hwf, hbound⟩ hstep
  have hregister : RegisterWf t := by
    rcases step_cases s t hstep with ⟨-, rfl⟩ | ⟨_, _, -, ⟨_, -, rfl⟩ | ⟨i, -, hexec⟩⟩
    · exact ⟨hf, hlj⟩
    · exact ⟨hf, hlj⟩
    · exact exec_registerWf ⟨hf, hlj⟩ hexec
  have hwrites : WritesInBounds s t := writesAreEventsInBounds s t hstep
  exact ⟨hregister.1, hregister.2, hwrites.dst_wf hwf hbound⟩

/-- Settles O40: the register is empty and the destination lists nothing. -/
theorem resetMeetsInvariant : Obligations.ResetMeetsInvariant := by
  obtain ⟨hf, hlj⟩ : RegisterWf State.reset := registerWf_of_empty rfl rfl
  exact ⟨hf, hlj, .nil, nofun⟩

/-- Settles O42: a presented word touches neither the register nor the destination, and power-on empties the
register. -/
theorem hostKeepsInvariant : Obligations.HostKeepsInvariant := by
  intro s w p hinv
  have ⟨_, _, hwf, hbound⟩ := hinv
  have ⟨hf, hlj⟩ : RegisterWf (powerOn s) := registerWf_of_empty rfl rfl
  exact ⟨hinv, hf, hlj, hwf, hbound⟩

/-! ### How far `INDEX` moves -/

theorem indexAdvance_of_insertion {i : Instr} (hins : isInsertion i = true) (s : State) :
    indexAdvance i s = 4 * drainCount (insertedBits i).length s := by
  cases i with
  | putBe | putLe | put64Be | put64Le => rfl
  | _ => exact absurd hins (by simp [isInsertion])

theorem insertedBits_of_not_wellFormed {i : Instr} (hwf : i.wellFormed = false) : insertedBits i = [] := by
  cases i with
  | putBe n v | putLe n v | put64Be n v | put64Le n v => exact if_neg (of_decide_eq_false hwf)
  | _ => rfl

theorem indexAdvance_wrb_of_paid {l : BitVec 32} {s : State} (hpay : l.toNat ≤ s.pay.length) :
    indexAdvance (.wrb l) s = flushCount s + if FlushSucceeds s then l.toNat else 0 := if_neg (by omega)

/-- After a flush that succeeds `INDEX` counts the bytes of the stream. -/
theorem index_add_flushCount {s : State} (hok : FlushSucceeds s) : s.index.toNat + flushCount s = position s / 8 := by
  obtain ⟨-, hindex, -⟩ := flushDrain_of_fits hok.2
  rw [← flushDrain_index, hindex]

/-- A command that starts no new stream adds to `INDEX` what `indexAdvance` says. -/
theorem exec_index {i : Instr} {s t : State} (hf : s.fill.toNat ≤ 64) (henv : InEnvelope i s) (h : exec i s = .next t)
    (hkeep : startsStream i = false) : t.index.toNat = s.index.toNat + indexAdvance i s := by
  cases exec_effect h with
  | bind n hstart => simp [hkeep] at hstart
  | insertion hins hwf =>
    rw [InEnvelope, indexAdvance_of_insertion hins, ← partsBits_insertionParts hwf] at henv
    rw [indexAdvance_of_insertion hins, ← partsBits_insertionParts hwf]
    exact insertParts_index (insertionParts_fit hwf) hf henv
  | illFormed hins hwf =>
    rw [indexAdvance_of_insertion hins, insertedBits_of_not_wellFormed hwf, List.length_nil, drainCount_zero hf]
    rfl
  | flush => exact flushDrain_index s
  | wait hshort =>
    have hnone : indexAdvance (.wrb _) s = 0 := if_pos hshort
    rw [hnone, Nat.add_zero]
  | propagate hpay hfail =>
    rw [indexAdvance_wrb_of_paid hpay, if_neg hfail]
    exact flushDrain_index s
  | copy hpay hok =>
    rw [InEnvelope, indexAdvance_wrb_of_paid hpay, if_pos hok, ← Nat.add_assoc, index_add_flushCount hok] at henv
    rw [indexAdvance_wrb_of_paid hpay, if_pos hok, ← Nat.add_assoc, index_add_flushCount hok]
    exact wrbCopy_index hpay hok henv
  | query v0 v1 hi => rcases hi with rfl | rfl | rfl <;> rfl

theorem exec_index_of_startsStream {i : Instr} {s t : State} (h : exec i s = .next t) (hstart : startsStream i = true) :
    t.index = 0#32 ∧ t.fill = 0#7 := by
  cases i with
  | init | inith | reset =>
    obtain rfl := Host.Outcome.next.inj h
    exact ⟨rfl, rfl⟩
  | _ => simp [startsStream] at hstart

/-- Settles O45, by the two lemmas on `INDEX` after a command. -/
theorem indexOnlyIncreases : Obligations.IndexOnlyIncreases := by
  intro s t i hf henv hexec
  cases hstart : startsStream i with
  | true => exact (exec_index_of_startsStream hexec hstart).1
  | false =>
    have hindex := exec_index hf henv hexec hstart
    exact ⟨by omega, hindex⟩

/-! ### The position, and the Overflow that stays -/

theorem length_payloadBits (p : List Byte) : (payloadBits p).length = 8 * p.length := by
  induction p with
  | nil => rfl
  | cons b p ih =>
    have hcons : payloadBits (b :: p) = beBits 8 b ++ payloadBits p := rfl
    rw [hcons, List.length_append, ih, length_beBits, List.length_cons]
    omega

theorem appendedBits_of_insertion {i : Instr} (hins : isInsertion i = true) (s : State) :
    appendedBits i s = insertedBits i := by
  cases i with
  | wrb => simp [isInsertion] at hins
  | _ => rfl

theorem appendedBits_wrb_of_copy {l : BitVec 32} {s : State} (hpay : l.toNat ≤ s.pay.length) (hok : FlushSucceeds s) :
    appendedBits (.wrb l) s = payloadBits (s.pay.take l.toNat) := if_pos ⟨hpay, hok⟩

theorem appendedBits_wrb_of_no_copy {l : BitVec 32} {s : State} (h : ¬ (l.toNat ≤ s.pay.length ∧ FlushSucceeds s)) :
    appendedBits (.wrb l) s = [] := if_neg h

/-- A command that starts no new stream moves the position by the bits it appends. -/
theorem exec_position {i : Instr} {s t : State} (hf : s.fill.toNat ≤ 64) (henv : InEnvelope i s)
    (h : exec i s = .next t) (hkeep : startsStream i = false) :
    position t = position s + (appendedBits i s).length := by
  have hindex := exec_index hf henv h hkeep
  cases exec_effect h with
  | bind n hstart => simp [hkeep] at hstart
  | insertion hins hwf =>
    have hfill := insertParts_fill (insertionParts_fit hwf) hf
    rw [partsBits_insertionParts hwf] at hfill
    rw [indexAdvance_of_insertion hins] at hindex
    rw [appendedBits_of_insertion hins, position, position, hindex, respond_fill]
    omega
  | illFormed hins hwf =>
    rw [appendedBits_of_insertion hins, insertedBits_of_not_wellFormed hwf]
    rfl
  | flush => exact position_flushDrain s
  | wait hshort =>
    rw [appendedBits_wrb_of_no_copy (by omega)]
    rfl
  | propagate hpay hfail =>
    rw [appendedBits_wrb_of_no_copy (fun hcopy => hfail hcopy.2)]
    exact position_flushDrain s
  | copy hpay hok =>
    have hwhole := hok.1
    rw [indexAdvance_wrb_of_paid hpay, if_pos hok, ← Nat.add_assoc, index_add_flushCount hok] at hindex
    rw [appendedBits_wrb_of_copy hpay hok, length_payloadBits, length_payload hpay, position, hindex, respond_fill,
      wrbCopy_fill hok, BitVec.toNat_ofNat]
    omega
  | query v0 v1 hi => rcases hi with rfl | rfl | rfl <;> rfl

theorem overflowed_iff (s : State) : Overflowed s ↔ 8 * s.len.toNat < position s := by
  unfold Overflowed ceil8 position
  omega

theorem flushStatus_of_overflowed {s : State} (h : Overflowed s) : flushStatus (flushDrain s) = .overflow := by
  rw [flushStatus_flushDrain, if_pos (.inl ((overflowed_iff s).1 h))]

theorem not_flushSucceeds_of_overflowed {s : State} (h : Overflowed s) : ¬ FlushSucceeds s := by
  have hover := (overflowed_iff s).1 h
  rw [FlushSucceeds]
  omega

theorem exec_len_of_keeps {i : Instr} {s t : State} (h : exec i s = .next t) (hkeep : startsStream i = false) :
    t.len = s.len := by
  rcases exec_len h with ⟨n, rfl, -⟩ | ⟨n, hint, rfl, -⟩ | hlen
  · simp [startsStream] at hkeep
  · simp [startsStream] at hkeep
  · exact hlen

/-- Settles O46: the position never falls while the stream and `LEN` stay (`exec_position`), and an overflowed state
flushes with OVERFLOW. -/
theorem overflowPersists : Obligations.OverflowPersists := by
  intro s t i hf hover henv hexec
  refine ⟨fun hkeep => ?_, ?_, ?_⟩
  · have hposition := exec_position hf henv hexec hkeep
    rw [overflowed_iff] at hover ⊢
    rw [exec_len_of_keeps hexec hkeep, hposition]
    omega
  · rintro rfl
    obtain rfl := Host.Outcome.next.inj ((exec_flush s).symm.trans hexec)
    rw [respond_rsp, flushDrain_rsp, flushStatus_of_overflowed hover, responseWord_overflow]
  · rintro l rfl hpay
    rw [exec_wrb_of_flush_fails hpay (not_flushSucceeds_of_overflowed hover), exec_flush, flushDrain_consumePayload]
      at hexec
    have hst : flushStatus (consumePayload l.toNat (flushDrain s)) = .overflow := flushStatus_of_overflowed hover
    obtain rfl := Host.Outcome.next.inj hexec
    rw [respond_rsp, consumePayload_rsp, flushDrain_rsp, hst, responseWord_overflow]

end Sys2Proof.Machine

/-! PROOFS. The stream (`41_put_be.md` R90, `44_flush.md` R103): a state that holds a stream goes on holding it, with
the bits each command appends, because bytes move from the register to the destination in stream order and new bits
enter the register behind the pending ones. -/

namespace Sys2Proof.Machine

/-! ### Bits and bytes of a stream -/

/-- A byte that was complete stays the same byte when the stream grows. -/
theorem byte_of_append {S B : List Bool} {j : Nat} (h : 8 * j + 8 ≤ S.length) :
    ((S ++ B).drop (8 * j)).take 8 = (S.drop (8 * j)).take 8 := by
  rw [List.drop_append_of_le_length (by omega), List.take_append_of_le_length (by rw [List.length_drop]; omega)]

/-- Byte `i` of the register is pending bits `8i` to `8i + 7`, where these are pending (`20_memory.md` R34). -/
theorem byteBits_cache {s : State} (hf : s.fill.toNat ≤ 64) {i : Nat} (hi : 8 * i + 8 ≤ s.fill.toNat) :
    byteBits (s.cache.extractLsb' (56 - 8 * i) 8) = ((pendingBits s).drop (8 * i)).take 8 := by
  apply List.ext_getElem?
  intro j
  rw [byteBits, beBits_getElem?, List.getElem?_take, List.getElem?_drop, pendingBits_getElem?]
  by_cases hj : j < 8
  · rw [if_pos hj, if_pos hj, if_pos (by omega), BitVec.getLsbD_extractLsb', BitVec.getMsbD_eq_getLsbD,
      decide_eq_true (by omega), decide_eq_true (by omega), Bool.true_and, Bool.true_and]
    congr 2
    omega
  · rw [if_neg hj, if_neg hj]

/-- Byte `i` of a payload is bits `8i` to `8i + 7` of its stream bits. -/
theorem byteBits_payload {p : List Byte} {i : Nat} {b : Byte} (hb : p[i]? = some b) :
    byteBits b = ((payloadBits p).drop (8 * i)).take 8 := by
  induction p generalizing i with
  | nil => simp at hb
  | cons c p ih =>
    have hcons : payloadBits (c :: p) = byteBits c ++ payloadBits p := rfl
    have hlength : (byteBits c).length = 8 := length_beBits 8 c
    cases i with
    | zero =>
      obtain rfl : c = b := by simpa using hb
      rw [hcons, Nat.mul_zero, List.drop_zero, List.take_left' hlength]
    | succ i =>
      rw [List.getElem?_cons_succ] at hb
      rw [ih hb, hcons, show 8 * (i + 1) = 8 + 8 * i by omega, ← List.drop_drop, List.drop_left' hlength]

/-! ### What keeps a stream -/

/-- An empty register at `INDEX = 0` holds the empty stream. -/
theorem streamHolds_nil {t : State} (hindex : t.index = 0#32) (hfill : t.fill = 0#7) : StreamHolds [] t := by
  refine ⟨?_, ?_, fun _ j hj => ?_⟩
  · rw [position, hindex, hfill]
    rfl
  · rw [List.drop_nil, pendingBits_eq_nil (by rw [hfill]; rfl)]
  · rw [hindex] at hj
    exact absurd hj (Nat.not_lt_zero j)

/-- Bits that enter the register behind the pending ones are appended to the stream. -/
theorem StreamHolds.append {S B : List Bool} {s t : State} (h : StreamHolds S s) (hindex : t.index = s.index)
    (hlen : t.len = s.len) (hdst : t.dst = s.dst) (hpending : pendingBits t = pendingBits s ++ B) :
    StreamHolds (S ++ B) t := by
  obtain ⟨hlength, hdrop, hbytes⟩ := h
  have hfill : t.fill.toNat = s.fill.toNat + B.length := by
    rw [← length_pendingBits, hpending, List.length_append, length_pendingBits]
  unfold position at hlength
  refine ⟨?_, ?_, ?_⟩
  · rw [List.length_append, position, hindex, hfill]
    omega
  · rw [hindex, List.drop_append_of_le_length (by omega), hdrop, hpending]
  · rw [hindex, hlen, hdst]
    intro hle j hj
    obtain ⟨b, hb, hbits⟩ := hbytes hle j hj
    exact ⟨b, hb, hbits.trans (byte_of_append (by omega)).symm⟩

/-- Moving the `k` oldest bytes of the register to the offsets from `INDEX` on keeps the stream. Where `INDEX` ends up
past `LEN` nothing is asked of the destination. -/
theorem StreamHolds.move {S : List Bool} {s t : State} {k : Nat} (h : StreamHolds S s) (hf : s.fill.toNat ≤ 64)
    (hk : 8 * k ≤ s.fill.toNat) (hindex : t.index.toNat = s.index.toNat + k)
    (hfill : t.fill.toNat = s.fill.toNat - 8 * k) (hcache : t.cache = s.cache <<< (8 * k)) (hlen : t.len = s.len)
    (hread : t.index.toNat ≤ t.len.toNat → ∀ a, Memory.read t.dst a =
      if s.index.toNat ≤ a ∧ a < s.index.toNat + k then some (s.cache.extractLsb' (56 - 8 * (a - s.index.toNat)) 8)
      else Memory.read s.dst a) : StreamHolds S t := by
  obtain ⟨hlength, hdrop, hbytes⟩ := h
  unfold position at hlength
  refine ⟨?_, ?_, fun hle j hj => ?_⟩
  · rw [position, hindex, hfill]
    omega
  · rw [pendingBits_of_shift hcache hfill, ← hdrop, List.drop_drop, hindex, Nat.mul_add]
  · rw [hread hle j]
    by_cases hnew : s.index.toNat ≤ j
    · have hplace : 8 * s.index.toNat + 8 * (j - s.index.toNat) = 8 * j := by omega
      rw [if_pos ⟨hnew, by omega⟩]
      refine ⟨_, rfl, ?_⟩
      rw [byteBits_cache hf (by omega), ← hdrop, List.drop_drop, hplace]
    · rw [if_neg (by omega)]
      rw [hindex, hlen] at hle
      exact hbytes (by omega) j (by omega)

/-- Bytes written from `INDEX` on, with nothing pending, are appended to the stream. -/
theorem StreamHolds.appendBytes {S : List Bool} {s t : State} {p : List Byte} (h : StreamHolds S s)
    (hempty : s.fill = 0#7) (hfill : t.fill = 0#7) (hindex : t.index.toNat = s.index.toNat + p.length)
    (hlen : t.len = s.len)
    (hread : t.index.toNat ≤ t.len.toNat → ∀ a, Memory.read t.dst a =
      if s.index.toNat ≤ a ∧ a < s.index.toNat + p.length then p[a - s.index.toNat]? else Memory.read s.dst a) :
    StreamHolds (S ++ payloadBits p) t := by
  obtain ⟨hlength, -, hbytes⟩ := h
  have hS : S.length = 8 * s.index.toNat := by
    rw [hlength, position, hempty]
    exact Nat.mul_comm _ 8
  have hlength' : (S ++ payloadBits p).length = 8 * t.index.toNat := by
    rw [List.length_append, length_payloadBits, hS, hindex, Nat.mul_add]
  refine ⟨?_, ?_, fun hle j hj => ?_⟩
  · rw [hlength', position, hfill]
    exact Nat.mul_comm 8 _
  · rw [← hlength', List.drop_length, pendingBits_eq_nil (by rw [hfill]; rfl)]
  · rw [hread hle j]
    rw [hindex] at hj
    by_cases hnew : s.index.toNat ≤ j
    · have hb := List.getElem?_eq_getElem (l := p) (i := j - s.index.toNat) (by omega)
      have hplace : 8 * j - S.length = 8 * (j - s.index.toNat) := by omega
      rw [if_pos ⟨hnew, hj⟩, hb]
      refine ⟨_, rfl, ?_⟩
      rw [byteBits_payload hb, List.drop_append, List.drop_eq_nil_of_le (as := S) (by omega), List.nil_append, hplace]
    · rw [if_neg (by omega)]
      rw [hindex, hlen] at hle
      obtain ⟨b, hb, hbits⟩ := hbytes (by omega) j (by omega)
      exact ⟨b, hb, hbits.trans (byte_of_append (by omega)).symm⟩

/-! ### The operations keep the stream -/

theorem drain32_keeps_stream {S : List Bool} {s : State} (h : StreamHolds S s) (hf : s.fill.toNat ≤ 64)
    (hfull : 32 ≤ s.fill.toNat) (henv : s.index.toNat + 4 < Config.indexLimit) : StreamHolds S (drain32 s) := by
  have hindex : (drain32 s).index.toNat = s.index.toNat + 4 := by rw [drain32_index, advanceIndex_index henv]
  refine h.move (k := 4) hf hfull hindex (drain32_fill s) (drain32_cache s) (drain32_len s) fun hle a => ?_
  rw [hindex, drain32_len] at hle
  rw [drain32_dst, drain32Events_eq_eventsAt, if_pos hle, read_applyEvents_oldestBytes]

theorem flushDrain_keeps_stream {S : List Bool} {s : State} (h : StreamHolds S s) (hf : s.fill.toNat ≤ 64) :
    StreamHolds S (flushDrain s) := by
  have hcount : 8 * flushCount s ≤ s.fill.toNat := by
    unfold flushCount
    omega
  refine h.move hf hcount (flushDrain_index s) (flushDrain_fill s) (flushDrain_cache s) (flushDrain_len s) fun _ a => ?_
  rw [read_flushDrain_dst hf, flushDrain_index]

theorem drainFor_keeps_stream {S : List Bool} {n : Nat} {s : State} (h : StreamHolds S s) (hn : n ≤ 32)
    (hf : s.fill.toNat ≤ 64) (henv : s.index.toNat + 4 * drainCount n s < Config.indexLimit) :
    StreamHolds S (drainFor n s) := by
  rw [drainCount_of_le hn hf] at henv
  by_cases hfull : 64 < s.fill.toNat + n
  · rw [if_pos hfull] at henv
    rw [drainFor_of_full hfull]
    exact drain32_keeps_stream h hf (by omega) henv
  · rw [drainFor_of_fits (by omega)]
    exact h

/-- `PUT_BE` appends its bits, most significant first (`41_put_be.md` R90). -/
theorem insertBe_appends {S : List Bool} {n : Nat} {s : State} (h : StreamHolds S s) (hn : n ≤ 32) (v : BitVec 32)
    (hs : RegisterWf s) (henv : s.index.toNat + 4 * drainCount n s < Config.indexLimit) :
    StreamHolds (S ++ beBits n v) (insertBe n v s) :=
  (drainFor_keeps_stream h hn hs.1 henv).append rfl rfl rfl (pendingBits_insertBe hn v hs)

/-- A run of insertions appends the bits of its parts in order. -/
theorem insertParts_appends {S : List Bool} {ps : List (Nat × BitVec 32)} {s : State} (h : StreamHolds S s)
    (hps : PartsFit ps) (hs : RegisterWf s)
    (henv : s.index.toNat + 4 * drainCount (partsBits ps).length s < Config.indexLimit) :
    StreamHolds (S ++ partsBits ps) (insertParts ps s) := by
  induction ps generalizing S s with
  | nil => rwa [partsBits_nil, List.append_nil]
  | cons p ps ih =>
    obtain ⟨hp, hlength, hps⟩ := hps.tail
    obtain ⟨hlj, hf⟩ := insertBe_leftJustified (v := p.2) hp hs.1 hs.2
    rw [partsBits_cons, List.length_append, length_beBits, drainCount_add hp hlength p.2 hs.1] at henv
    have hindex : (insertBe p.1 p.2 s).index.toNat = s.index.toNat + 4 * drainCount p.1 s := by
      rw [insertBe_index]
      exact drainFor_index hp hs.1 (by omega)
    rw [partsBits_cons, ← List.append_assoc]
    exact ih (insertBe_appends h hp p.2 hs (by omega)) hps ⟨hf, hlj⟩ (by rw [hindex]; omega)

/-- The copy of a `WRB` appends the payload behind the flushed stream (`45_write_bytes.md` R106). -/
theorem wrbCopy_appends {S : List Bool} {l : BitVec 32} {s : State} (h : StreamHolds S s) (hf : s.fill.toNat ≤ 64)
    (hpay : l.toNat ≤ s.pay.length) (hok : FlushSucceeds s) (henv : position s / 8 + l.toNat < Config.indexLimit) :
    StreamHolds (S ++ payloadBits (s.pay.take l.toNat)) (wrbCopy l s) := by
  obtain ⟨-, hflushed, -⟩ := flushDrain_of_fits hok.2
  have hlength := length_payload hpay
  have hlen : (wrbCopy l s).len = (flushDrain s).len := copyPayload_len _ _
  have hindex : (wrbCopy l s).index.toNat = (flushDrain s).index.toNat + (s.pay.take l.toNat).length := by
    rw [wrbCopy_index hpay hok henv, hflushed, hlength]
  refine (flushDrain_keeps_stream h hf).appendBytes (exec_flush_of_succeeds hok).2 (wrbCopy_fill hok) hindex hlen
    fun hle a => ?_
  have hall : bytesThatFit (s.pay.take l.toNat).length (flushDrain s) = (s.pay.take l.toNat).length := by
    rw [hindex, hlen] at hle
    exact Nat.min_eq_left (by omega)
  rw [wrbCopy, consumePayload_dst, copyPayload_dst, hall, List.take_length, read_applyEvents_eventsAt]

/-! ### The commands -/

theorem streamAfter_of_keeps {i : Instr} (hkeep : startsStream i = false) (s : State) (S : List Bool) :
    streamAfter i s S = S ++ appendedBits i s := by
  rw [streamAfter, hkeep]
  rfl

theorem startsStream_of_insertion {i : Instr} (hins : isInsertion i = true) : startsStream i = false := by
  cases i with
  | init | inith | reset => simp [isInsertion] at hins
  | _ => rfl

/-- A command inside the envelope carries the stream. -/
theorem exec_carries_stream {S : List Bool} {i : Instr} {s t : State} (hs : RegisterWf s) (h : StreamHolds S s)
    (henv : InEnvelope i s) (hexec : exec i s = .next t) : StreamHolds (streamAfter i s S) t := by
  cases exec_effect hexec with
  | bind n hstart =>
    rw [streamAfter, hstart]
    exact streamHolds_nil rfl rfl
  | insertion hins hwf =>
    rw [InEnvelope, indexAdvance_of_insertion hins, ← partsBits_insertionParts hwf] at henv
    rw [streamAfter_of_keeps (startsStream_of_insertion hins), appendedBits_of_insertion hins,
      ← partsBits_insertionParts hwf]
    exact insertParts_appends h (insertionParts_fit hwf) hs henv
  | illFormed hins hwf =>
    rw [streamAfter_of_keeps (startsStream_of_insertion hins), appendedBits_of_insertion hins,
      insertedBits_of_not_wellFormed hwf, List.append_nil]
    exact h
  | flush =>
    have hsame : streamAfter .flush s S = S := List.append_nil S
    rw [hsame]
    exact flushDrain_keeps_stream h hs.1
  | wait hshort =>
    rw [streamAfter_of_keeps rfl, appendedBits_wrb_of_no_copy (by omega), List.append_nil]
    exact h
  | propagate hpay hfail =>
    rw [streamAfter_of_keeps rfl, appendedBits_wrb_of_no_copy (fun hcopy => hfail hcopy.2), List.append_nil]
    exact flushDrain_keeps_stream h hs.1
  | copy hpay hok =>
    rw [InEnvelope, indexAdvance_wrb_of_paid hpay, if_pos hok, ← Nat.add_assoc, index_add_flushCount hok] at henv
    rw [streamAfter_of_keeps rfl, appendedBits_wrb_of_copy hpay hok]
    exact wrbCopy_appends h hs.1 hpay hok henv
  | query v0 v1 hi =>
    have hsame : streamAfter i s S = S := by rcases hi with rfl | rfl | rfl <;> exact List.append_nil S
    rw [hsame]
    exact h

/-- Settles O47: the step runs the command that is presented, and each command carries the stream
(`exec_carries_stream`). -/
theorem stepCarriesTheStream : Obligations.StepCarriesTheStream := by
  intro S s t i ⟨hf, hlj, _⟩ h hnext henv hstep
  rw [step_of_nextInstr hnext] at hstep
  exact exec_carries_stream ⟨hf, hlj⟩ h henv hstep

/-- Settles O48: the flush keeps the stream, and a flush that answers OK leaves no bit pending, so that `INDEX` counts
the bytes of the stream. -/
theorem okFlushDeliversTheStream : Obligations.OkFlushDeliversTheStream := by
  intro S s t ⟨hf, _⟩ h hexec hrsp
  rw [← responseWord_ok] at hrsp
  obtain ⟨hst, rfl⟩ := flushStatus_of_response hexec hrsp
  have hok := (flushStatus_eq_ok_iff s).1 hst
  obtain ⟨-, hindex, -⟩ := flushDrain_of_fits hok.2
  obtain ⟨hlength, -, hbytes⟩ := flushDrain_keeps_stream h hf
  have hfits : (flushDrain s).index.toNat ≤ (flushDrain s).len.toNat := by
    have hle := hok.2
    rw [hindex, flushDrain_len]
    omega
  refine ⟨?_, hfits, hbytes hfits⟩
  rw [hlength, position, (exec_flush_of_succeeds hok).2, respond_index]
  exact Nat.mul_comm _ 8

end Sys2Proof.Machine
